-- ==== Sys2Proof/Word.lean ====
section
/-! DEFINITION. The machine's one data width: every register, immediate, address and stored value is
an unsigned byte (R11, R57). -/

namespace Sys2Proof

/-- A byte: the only data quantity of the machine (R11). -/
abbrev Byte := BitVec 8

/-- The number of a general register, R0 to R7 (R21): an operand byte that passed `checkReg`. -/
abbrev RegIndex := Fin 8

end Sys2Proof
end

