-- ==== Sys2Proof/Config.lean ====
section
/-! DEFINITION. The implementation parameters of Table P1 (R9), and the two host parameters the spec
keeps open, as constants without a body. -/

namespace Sys2Proof

/-- `MEM_SIZE`: 256 cells; an address is valid when it is in 0 to 255 (R9, R50). -/
@[simp] def Config.memSize : Nat := 256

/-- `SP_INDEX`: the register used as stack pointer, R7 (R24).
DESIGN CHOICE of the spec (decision D1), log 2. -/
def Config.spIndex : RegIndex := 7

/-- `SP_RESET` (R24, Table S2). -/
def Config.spReset : Byte := 0xF4#8

/-- `GPR_RESET`: R0 to R6 after reset (R37). DESIGN CHOICE of the spec (decision D3), log 1. -/
def Config.gprReset : Byte := 0x00#8

/-- `FL_RESET` (R30). DESIGN CHOICE of the spec (decision D5), log 1. -/
def Config.flReset : Byte := 0x00#8

/-- `PC_RESET`, the reset vector (R32, R211). DESIGN CHOICE of the spec (decision D4), log 1. -/
def Config.pcReset : Byte := 0x00#8

/-- `LOAD_BASE`: where the loader puts an image's first byte (R84, R212). -/
def Config.loadBase : Nat := 0

/-- `IMAGE_WHITESPACE` (decision D25): whether the external loader accepts leading and trailing
spaces on an image line. The spec leaves it OPEN: no value is known (log 10). -/
opaque Config.imageWhitespace : Bool

/-- `OUTPUT_LINE_END` (decision D26): the host's line terminator after a PRN line. The spec leaves it
OPEN: no value is known (log 22). -/
opaque Config.outputLineEnd : String

end Sys2Proof
end

