-- ==== Sys2Proof/Syntax.lean ====
section
/-! DEFINITION. The instruction set as syntax: one constructor for each row of the opcode table
(R2, R77). -/

namespace Sys2Proof

/-- The 13 instructions, in the order of Table E2. An operand is the whole operand byte (R74, R75):
`a` is a register index in every constructor that has it, `b` is a register index except in `ldi`,
where it is the immediate. A register byte of 8 to 255 is a term too, since a program image can hold
it: it is not well-formed, and executing it raises InvalidRegister (R94). -/
inductive Instr where
  | hlt                  -- R111
  | ldi (a b : Byte)     -- R112
  | prn (a : Byte)       -- R113
  | mul (a b : Byte)     -- R134
  | add (a b : Byte)     -- R135
  | cmp (a b : Byte)     -- R136
  | push (a : Byte)      -- R153
  | pop (a : Byte)       -- R154
  | call (a : Byte)      -- R172
  | ret                  -- R173
  | jmp (a : Byte)       -- R174
  | jeq (a : Byte)       -- R177
  | jne (a : Byte)       -- R178
deriving DecidableEq, Repr

end Sys2Proof
end

