-- ==== Sys2Proof/WellFormed.lean ====
section
/-! DEFINITION. Which instructions the assembler syntax can write: every register operand names one of
R0 to R7 (R22, R82). An immediate is never checked (R79). -/

namespace Sys2Proof

/-- A register index is valid if and only if it is less than 8 (R22). -/
def regByteValid (a : Byte) : Bool := decide (a.toNat < 8)

/-- Every operand the instruction's format defines as a register index is valid (R94's list). -/
def Instr.wellFormed : Instr → Bool
  | .hlt => true
  | .ldi a _ => regByteValid a
  | .prn a => regByteValid a
  | .mul a b => regByteValid a && regByteValid b
  | .add a b => regByteValid a && regByteValid b
  | .cmp a b => regByteValid a && regByteValid b
  | .push a => regByteValid a
  | .pop a => regByteValid a
  | .call a => regByteValid a
  | .ret => true
  | .jmp a => regByteValid a
  | .jeq a => regByteValid a
  | .jne a => regByteValid a

end Sys2Proof
end

