-- ==== Sys2Proof/Decode.lean ====
section
/-! DEFINITION. The decoder (R93, R101) over the opcode map of Table E2 (R77), total on any bytes and
rejecting by name; after it the encoder, and the assembler form (R82). -/

namespace Sys2Proof

/-- The 13 mnemonics, in the order of Table E2. -/
inductive Mnemonic where
  | HLT | LDI | PRN | MUL | ADD | CMP | PUSH | POP | CALL | RET | JMP | JEQ | JNE
deriving DecidableEq, Repr

/-- The four formats of Table E1 (R72). -/
inductive Format where
  /-- Opcode only. -/
  | F0
  /-- Opcode, register index. -/
  | F1R
  /-- Opcode, register index, immediate. -/
  | F2RI
  /-- Opcode, register index, register index. -/
  | F2RR
deriving DecidableEq, Repr

/-- The operations of the ALU (R130): no other member exists. -/
inductive AluOp where
  | ADD | MUL | CMP
deriving DecidableEq, Repr

/-- Where an instruction that does not fault takes its next pc from (R102). -/
inductive NextPcClass where
  /-- pc keeps its value: HLT. -/
  | hold
  /-- pc + length. -/
  | fallThrough
  /-- A register's value. -/
  | register
  /-- A register's value if the branch is taken, else pc + length. -/
  | conditional
  /-- The byte at the stack pointer: RET. -/
  | memory
deriving DecidableEq, Repr

/-- One row of the opcode map. -/
structure OpcodeRow where
  opcode : Byte
  mnemonic : Mnemonic
  format : Format
deriving DecidableEq, Repr

/-- Why the decoder refuses bytes. -/
inductive DecodeError where
  /-- The opcode has no entry in Table E2 (R78, R93). -/
  | invalidOpcode (op : Byte)
  /-- Fewer than the three bytes the fetch always reads (R92): never given by the machine. -/
  | tooShort
deriving DecidableEq, Repr

/-- Table E2 (R77), in its order. -/
def opcodeMap : List OpcodeRow :=
  [ ⟨0x01#8, .HLT, .F0⟩,
    ⟨0x82#8, .LDI, .F2RI⟩,
    ⟨0x47#8, .PRN, .F1R⟩,
    ⟨0xA2#8, .MUL, .F2RR⟩,
    ⟨0xA0#8, .ADD, .F2RR⟩,
    ⟨0xA7#8, .CMP, .F2RR⟩,
    ⟨0x45#8, .PUSH, .F1R⟩ ] ++
  [ ⟨0x46#8, .POP, .F1R⟩,
    ⟨0x50#8, .CALL, .F1R⟩,
    ⟨0x11#8, .RET, .F0⟩,
    ⟨0x54#8, .JMP, .F1R⟩,
    ⟨0x55#8, .JEQ, .F1R⟩,
    ⟨0x56#8, .JNE, .F1R⟩ ]

/-- The row of an opcode: the whole byte is compared (R73); `none` is the decoder's output
`valid = false` (R101). -/
def opcodeRow (op : Byte) : Option OpcodeRow :=
  opcodeMap.find? fun r => r.opcode == op

/-- The length of an instruction of a format, in bytes (R72). -/
def Format.length : Format → Nat
  | .F0 => 1
  | .F1R => 2
  | .F2RI => 3
  | .F2RR => 3

/-- The operand count an opcode's bits 7:6 give (R71). -/
def opcodeOperandCount (op : Byte) : Nat := (op.extractLsb' 6 2).toNat

/-- Whether operand byte `a` of a format is a register index (R94, R101). -/
def Format.aIsRegister : Format → Bool
  | .F0 => false
  | .F1R => true
  | .F2RI => true
  | .F2RR => true

/-- Whether operand byte `b` of a format is a register index (R94, R101). -/
def Format.bIsRegister : Format → Bool
  | .F0 => false
  | .F1R => false
  | .F2RI => false
  | .F2RR => true

/-- The ALU operation the decoder supplies (R101): none for ten of the mnemonics. -/
def Mnemonic.aluOp : Mnemonic → Option AluOp
  | .MUL => some .MUL
  | .ADD => some .ADD
  | .CMP => some .CMP
  | .HLT | .LDI | .PRN | .PUSH | .POP | .CALL | .RET | .JMP | .JEQ | .JNE => none

/-- The next-pc class of a mnemonic (R102). -/
def Mnemonic.nextPcClass : Mnemonic → NextPcClass
  | .HLT => .hold
  | .LDI | .MUL | .ADD | .CMP | .PRN | .PUSH | .POP => .fallThrough
  | .JMP | .CALL => .register
  | .JEQ | .JNE => .conditional
  | .RET => .memory

/-- The instruction of a mnemonic with the candidate operand bytes; bytes that are no operand are
ignored (R76). -/
def Mnemonic.withOperands (m : Mnemonic) (a b : Byte) : Instr :=
  match m with
  | .HLT => .hlt
  | .LDI => .ldi a b
  | .PRN => .prn a
  | .MUL => .mul a b
  | .ADD => .add a b
  | .CMP => .cmp a b
  | .PUSH => .push a
  | .POP => .pop a
  | .CALL => .call a
  | .RET => .ret
  | .JMP => .jmp a
  | .JEQ => .jeq a
  | .JNE => .jne a

/-- The decoder on the three fetched bytes (R93). -/
def decode (op a b : Byte) : Except DecodeError Instr :=
  match opcodeRow op with
  | some row => .ok (row.mnemonic.withOperands a b)
  | none => .error (.invalidOpcode op)

/-- The decoder on any bytes: the first three are those at pc, pc + 1 and pc + 2. -/
def decodeBytes : List Byte → Except DecodeError Instr
  | op :: a :: b :: _ => decode op a b
  | _ => .error .tooShort

/-- The mnemonic of an instruction. -/
def Instr.mnemonic : Instr → Mnemonic
  | .hlt => .HLT
  | .ldi _ _ => .LDI
  | .prn _ => .PRN
  | .mul _ _ => .MUL
  | .add _ _ => .ADD
  | .cmp _ _ => .CMP
  | .push _ => .PUSH
  | .pop _ => .POP
  | .call _ => .CALL
  | .ret => .RET
  | .jmp _ => .JMP
  | .jeq _ => .JEQ
  | .jne _ => .JNE

/-- The format of an instruction (Table E1). -/
def Instr.format : Instr → Format
  | .hlt => .F0
  | .ldi _ _ => .F2RI
  | .prn _ => .F1R
  | .mul _ _ => .F2RR
  | .add _ _ => .F2RR
  | .cmp _ _ => .F2RR
  | .push _ => .F1R
  | .pop _ => .F1R
  | .call _ => .F1R
  | .ret => .F0
  | .jmp _ => .F1R
  | .jeq _ => .F1R
  | .jne _ => .F1R

/-- The length of an instruction in bytes (R70, Table E2). -/
def Instr.length (i : Instr) : Nat := i.format.length

/-- The encoder: opcode, operand `a`, operand `b` at ascending addresses (R57, R70, Table E2). -/
def encode : Instr → List Byte
  | .hlt => [0b00000001#8]
  | .ldi a b => [0b10000010#8, a, b]
  | .prn a => [0b01000111#8, a]
  | .mul a b => [0b10100010#8, a, b]
  | .add a b => [0b10100000#8, a, b]
  | .cmp a b => [0b10100111#8, a, b]
  | .push a => [0b01000101#8, a]
  | .pop a => [0b01000110#8, a]
  | .call a => [0b01010000#8, a]
  | .ret => [0b00010001#8]
  | .jmp a => [0b01010100#8, a]
  | .jeq a => [0b01010101#8, a]
  | .jne a => [0b01010110#8, a]

/-- Byte `k` of the number `w` whose bit 0 is the least significant bit of byte 0. -/
def byteOfWord (w k : Nat) : Byte := BitVec.ofNat 8 (w / 256 ^ k)

/-- The bits of `w` below `nbits`; every bit above is 0. -/
def wordBits (nbits w : Nat) : Nat := w % 2 ^ nbits

/-- What the decoder reads from an instruction given as one number (the opcode table's numbering);
`none` where it refuses. -/
def decodeTableWord (nbits w : Nat) : Option Instr :=
  let u := wordBits nbits w
  match decode (byteOfWord u 0) (byteOfWord u 1) (byteOfWord u 2) with
  | .ok i => some i
  | .error _ => none

/-- The mnemonic as the assembler writes it (R82). -/
def Mnemonic.text : Mnemonic → String
  | .HLT => "HLT" | .LDI => "LDI" | .PRN => "PRN" | .MUL => "MUL" | .ADD => "ADD" | .CMP => "CMP"
  | .PUSH => "PUSH" | .POP => "POP" | .CALL => "CALL" | .RET => "RET" | .JMP => "JMP"
  | .JEQ => "JEQ" | .JNE => "JNE"

/-- `R0` to `R7`: the assembler's name of a register operand (R82); `none` for a byte of 8 to 255,
which "cannot be written in this syntax". -/
def registerText (a : Byte) : Option String :=
  if regByteValid a then some ("R" ++ toString a.toNat) else none

/-- The assembler form of an instruction (R82); `none` where the syntax cannot write it. -/
def Instr.assemblerForm (i : Instr) : Option String :=
  let m := i.mnemonic.text
  match i with
  | .hlt | .ret => some m
  | .ldi a b => (registerText a).map fun ra => m ++ " " ++ ra ++ "," ++ toString b.toNat
  | .prn a | .push a | .pop a | .call a | .jmp a | .jeq a | .jne a =>
      (registerText a).map fun ra => m ++ " " ++ ra
  | .mul a b | .add a b | .cmp a b =>
      match registerText a, registerText b with
      | some ra, some rb => some (m ++ " " ++ ra ++ "," ++ rb)
      | _, _ => none

end Sys2Proof
end

