-- ==== Sys2Proof/Machine/State.lean ====
section
/-! DEFINITION. The architectural state (R20), the reasons of the spec's faults (R191), and the state
after reset (Table S2, R210). -/

namespace Sys2Proof.Machine

/-- The four states of the Execution Engine (R33, R90). -/
inductive Status where
  | ready | running | halted | faulted
deriving DecidableEq, Repr

/-- The four fault kinds with their information (R191, R192). They are raised by the primitives of a
step; the step catches them and enters the Faulted state (R98), which is a NEXT state of the machine
(log 3). So no step of this model ends in `Host.Outcome.fault`: safe, since nothing is cut short. -/
inductive Fault where
  /-- "memory address ≥ capacity" (or below 0, C12): raised by `memRead`, `memWrite`, `spDec`,
  `spInc`, `nextPC` with the address that was out of range. Safe: the spec's own fault. -/
  | outOfBounds (addr : Int)
  /-- "register index ≥ 8": raised by `checkReg` with the operand byte. Safe: the spec's own fault. -/
  | invalidRegister (r : Byte)
  /-- "no table entry for fetched opcode": raised by `fetchDecode` with the opcode byte. Safe: the
  spec's own fault. -/
  | invalidOpcode (op : Byte)
  /-- "ALU invoked with unknown mnemonic" (R137): raised by `aluUnit`; no decoded instruction reaches
  it. Safe: the spec's own fault. -/
  | unsupportedOperation (m : Mnemonic)
deriving DecidableEq, Repr

/-- Why an instruction has no meaning in the model. -/
inductive Refusal where
  /-- The instruction of that mnemonic is not modelled: raised by no arm of `exec` (all 13 have their
  meaning). Safe: a refusal proves nothing about the hardware. -/
  | notModelled (mnemonic : String)
deriving DecidableEq, Repr

/-- The fault record (R34): the kind with its information, and the address of the instruction that
faulted. -/
structure FaultRecord where
  cause : Fault
  faultPc : Byte
deriving DecidableEq, Repr

/-- The Memory component's contents: the cells that do not hold 0x00, as (address, byte) pairs with
strictly rising addresses. An unlisted address reads as 0x00, the reset contents (R35). -/
abbrev Memory := List Host.Cell

/-- What an unlisted address reads as: memory is "zero-initialized" (R35). -/
def Memory.unlisted : Byte := 0x00#8

/-- The canonical form: rising addresses, no cell that an unlisted one would equal, and no address
outside 0 to 255 (R50). -/
abbrev Memory.wf (m : Memory) : Prop :=
  m.Pairwise (fun p q => p.1 < q.1) ∧ ∀ c ∈ m, c.2 ≠ Memory.unlisted ∧ c.1 < 256

/-- The architectural state, exactly the list of R20. -/
structure State where
  /-- General registers R0 to R7 (R21); R7 is the stack pointer (R24). -/
  x : Vector Byte 8
  /-- The flags byte FL: bit 0 = E, bit 1 = G, bit 2 = L (R27). -/
  fl : Byte
  /-- The program counter, 0 to 255 (R31). -/
  pc : Byte
  /-- The machine state (R33). -/
  status : Status
  /-- The fault record, or none (R34). -/
  fault : Option FaultRecord
  /-- The 256 bytes of memory (R35). -/
  mem : Memory
  /-- The output log, oldest byte first (R36). -/
  out : List Byte
deriving DecidableEq, Repr

/-- The state after reset: Table S2 (R210). -/
def State.reset : State where
  x := (Vector.replicate 8 Config.gprReset).set Config.spIndex.val Config.spReset
  fl := Config.flReset
  pc := Config.pcReset
  status := .ready
  fault := none
  mem := []
  out := []

end Sys2Proof.Machine
end

