-- ==== Sys2Proof/Machine/Ops.lean ====
section
/-! DEFINITION. The named operations over registers, memory and the program counter (the primitives of
R12), and taking a fault (R97, R98) as one shared operation. -/

namespace Sys2Proof.Machine

/-! ## Memory contents -/

/-- The byte at an address: the listed one, else 0x00 (R35). -/
def Memory.get : Memory → Nat → Byte
  | [], _ => Memory.unlisted
  | (k, v) :: rest, a => if k = a then v else Memory.get rest a

/-- The memory without its cell at `a`, so that `a` reads as 0x00. -/
def Memory.erase : Memory → Nat → Memory
  | [], _ => []
  | (k, v) :: rest, a => if k = a then Memory.erase rest a else (k, v) :: Memory.erase rest a

/-- The memory with a cell put before the first higher address. -/
def Memory.insert : Memory → Nat → Byte → Memory
  | [], a, v => [(a, v)]
  | (k, w) :: rest, a, v =>
    if a < k then (a, v) :: (k, w) :: rest else (k, w) :: Memory.insert rest a v

/-- The memory with `v` at `a`: writing what an unlisted address reads as removes the cell. -/
def Memory.set (m : Memory) (a : Nat) (v : Byte) : Memory :=
  if v = Memory.unlisted then m.erase a else (m.erase a).insert a v

/-! ## Accessors of the state -/

/-- `x[r]` (R21). -/
def State.reg (s : State) (r : RegIndex) : Byte := s.x[r]

/-- `x[r] <- v` (R21). -/
def State.setReg (s : State) (r : RegIndex) (v : Byte) : State := { s with x := s.x.set r.val v }

/-- `SP`: the register `x[SP_INDEX]` (R24). -/
def State.sp (s : State) : Byte := s.reg Config.spIndex

/-- `SP <- v` (R24). -/
def State.setSp (s : State) (v : Byte) : State := s.setReg Config.spIndex v

/-- `FL <- v` (R27). -/
def State.setFl (s : State) (v : Byte) : State := { s with fl := v }

/-- `pc <- v` (R31). -/
def State.setPc (s : State) (v : Byte) : State := { s with pc := v }

/-- `status <- st` (R33). -/
def State.setStatus (s : State) (st : Status) : State := { s with status := st }

/-- One byte of memory, by its address. -/
def State.byteAt (s : State) (a : Nat) : Byte := s.mem.get a

/-- The state with `v` in the memory cell `a`. -/
def State.setByte (s : State) (a : Nat) (v : Byte) : State := { s with mem := s.mem.set a v }

/-- `Out(v)`: append to the output log (R36). -/
def State.emit (s : State) (v : Byte) : State := { s with out := s.out ++ [v] }

/-! ## Taking a fault -/

/-- Fault entry (R98): `status <- Faulted`, `fault <- (K, info, pc)`, nothing else. There is no
handler, no vector and no return from a fault (R195, R196): only the `reset` transaction leaves
Faulted. -/
def State.enterFault (s : State) (f : Fault) : State :=
  { s with status := .faulted, fault := some ⟨f, s.pc⟩ }

/-- The end of a step that started at `s`: the new state, or, when a primitive raised a fault, the
fault entry at `s` itself, so that every write the step had made is discarded (R97). -/
def complete (s : State) : Except Fault State → Host.Outcome State Fault Refusal
  | .ok t => .next t
  | .error f => .next (s.enterFault f)

/-! ## Primitives that can raise a fault -/

/-- Whether an address, a mathematical integer, lies in 0 to 255 (R11, R50): below 0 it never does
(C12), and it is never reduced modulo 256 (R53). -/
def validAddr : Int → Bool
  | .ofNat n => decide (n < Config.memSize)
  | .negSucc _ => false

/-- `MemRead(addr, 1)` (R51). -/
def memRead (addr : Int) (s : State) : Except Fault Byte :=
  if validAddr addr then .ok (s.byteAt addr.toNat) else .error (.outOfBounds addr)

/-- `MemWrite(addr, 1, v)` (R52). -/
def memWrite (addr : Int) (v : Byte) (s : State) : Except Fault State :=
  if validAddr addr then .ok (s.setByte addr.toNat v) else .error (.outOfBounds addr)

/-- `NextPC(n)`: pc + n, never wrapped (R96). -/
def nextPC (n : Nat) (s : State) : Except Fault Byte :=
  if s.pc.toNat + n ≥ Config.memSize then .error (.outOfBounds ((s.pc.toNat + n : Nat) : Int))
  else .ok (BitVec.ofNat 8 (s.pc.toNat + n))

/-- `pc <- NextPC(n)` (R95, R96). -/
def advance (n : Nat) (s : State) : Except Fault State := do
  let t ← nextPC n s
  return s.setPc t

/-- `SPDec()`: used by PUSH and CALL; a decrement from 0 would give −1 and faults (R151). -/
def spDec (s : State) : Except Fault State :=
  if s.sp.toNat < 1 then .error (.outOfBounds (-1))
  else .ok (s.setSp (BitVec.ofNat 8 (s.sp.toNat - 1)))

/-- `SPInc()`: used by POP and RET; an increment from 255 would give 256 and faults (R152). -/
def spInc (s : State) : Except Fault State :=
  if s.sp.toNat + 1 ≥ Config.memSize then .error (.outOfBounds ((s.sp.toNat + 1 : Nat) : Int))
  else .ok (s.setSp (BitVec.ofNat 8 (s.sp.toNat + 1)))

end Sys2Proof.Machine
end

