-- ==== Sys2Proof/Machine/Flags.lean ====
section
/-! DEFINITION. The flags byte: its three bits (R27), the byte a comparison gives (R133), and the Equal
test of JEQ and JNE (R171). -/

namespace Sys2Proof.Machine

/-- Bit 0, E (Equal). -/
def flagEqual : Byte := 0x01#8

/-- Bit 1, G (Greater). -/
def flagGreater : Byte := 0x02#8

/-- Bit 2, L (Less). -/
def flagLess : Byte := 0x04#8

/-- The flags byte of the unsigned comparison of `p` with `q`, made from scratch (R133). -/
def compareFlags (p q : Byte) : Byte :=
  if p.toNat < q.toNat then flagLess
  else if p.toNat > q.toNat then flagGreater
  else flagEqual

/-- `E = FL[0]`: the direct bit test (R171, C7). -/
def equalFlag (fl : Byte) : Bool := fl.getLsbD 0

/-- FL "always holds one of four values" (R29). -/
def legalFlags : List Byte := [0x00#8, flagEqual, flagGreater, flagLess]

end Sys2Proof.Machine
end

