-- ==== Sys2Proof/Machine/Operands.lean ====
section
/-! DEFINITION. The operand forms: a register operand, one or two of them, checked before any effect
(R94); an immediate is the operand byte itself (R75) and needs no operation. -/

namespace Sys2Proof.Machine

/-- `CheckReg(r)` (R94): the register an operand byte names, never reduced modulo 8 (R22, R74). -/
def checkReg (a : Byte) : Except Fault RegIndex :=
  if h : a.toNat < 8 then .ok ⟨a.toNat, h⟩ else .error (.invalidRegister a)

/-- The two register operands of format F2RR, `a` checked first and then `b` (R94). -/
def checkRegs (a b : Byte) : Except Fault (RegIndex × RegIndex) := do
  let ra ← checkReg a
  let rb ← checkReg b
  return (ra, rb)

end Sys2Proof.Machine
end

