-- ==== Sys2Proof/Machine/Alu.lean ====
section
/-! DEFINITION. The ALU (R130 to R133, R137) and the instructions MUL, ADD and CMP (R134 to R136). -/

namespace Sys2Proof.Machine

/-- `alu(op, p, q) -> (result or none, new flags or none)` (R130): ADD and MUL keep the low 8 bits
(R131, R132), CMP gives flags only (R133). -/
def alu (op : AluOp) (p q : Byte) : Option Byte × Option Byte :=
  match op with
  | .ADD => (some (BitVec.ofNat 8 (p.toNat + q.toNat)), none)
  | .MUL => (some (BitVec.ofNat 8 (p.toNat * q.toNat)), none)
  | .CMP => (none, some (compareFlags p q))

/-- The ALU as the engine invokes it, with the consistency guard of R137: a mnemonic the decoder gives
no ALU operation for raises UnsupportedOperation. Unreachable from a decoded instruction (log 11). -/
def aluUnit (m : Mnemonic) (p q : Byte) : Except Fault (Option Byte × Option Byte) :=
  match m.aluOp with
  | some op => .ok (alu op p q)
  | none => .error (.unsupportedOperation m)

/-- Write what the ALU answers: the result to register `r`, the flags to FL, each only if given. -/
def State.writeAlu (s : State) (r : RegIndex) (res : Option Byte × Option Byte) : State :=
  let s1 := match res.1 with
    | some v => s.setReg r v
    | none => s
  match res.2 with
    | some f => s1.setFl f
    | none => s1

/-- The common shape of the three ALU instructions: check both registers, operate, fall through by 3. -/
def aluStep (m : Mnemonic) (a b : Byte) (s : State) : Except Fault State := do
  let (ra, rb) ← checkRegs a b
  let res ← aluUnit m (s.reg ra) (s.reg rb)
  advance 3 (s.writeAlu ra res)

/-- MUL (R134). -/
def execMul (a b : Byte) (s : State) : Host.Outcome State Fault Refusal :=
  complete s (aluStep .MUL a b s)

/-- ADD (R135). -/
def execAdd (a b : Byte) (s : State) : Host.Outcome State Fault Refusal :=
  complete s (aluStep .ADD a b s)

/-- CMP (R136). -/
def execCmp (a b : Byte) (s : State) : Host.Outcome State Fault Refusal :=
  complete s (aluStep .CMP a b s)

end Sys2Proof.Machine
end

