-- ==== Sys2Proof/Machine/Control.lean ====
section
/-! DEFINITION. The control transfers CALL, RET, JMP, JEQ and JNE (R170 to R178). Every target is an
absolute byte address and every byte is a legal one (R170). -/

namespace Sys2Proof.Machine

/-- CALL (R172): the target register is read after the decrement, so CALL R7 jumps to the decremented
SP. The return address pc + 2 is formed by `nextPC`, which cannot fault in a step (pc ≤ 253 there,
R92); it raises in a state no step executes in (log 6). -/
def execCall (a : Byte) (s : State) : Host.Outcome State Fault Refusal :=
  complete s (do
    let r ← checkReg a
    let s1 ← spDec s
    let ra ← nextPC 2 s1
    let s2 ← memWrite s1.sp.toNat ra s1
    return s2.setPc (s2.reg r))

/-- RET (R173). -/
def execRet (s : State) : Host.Outcome State Fault Refusal :=
  complete s (do
    let v ← memRead s.sp.toNat s
    spInc (s.setPc v))

/-- JMP (R174). -/
def execJmp (a : Byte) (s : State) : Host.Outcome State Fault Refusal :=
  complete s (do
    let r ← checkReg a
    return s.setPc (s.reg r))

/-- The two conditional jumps: to the register when `taken`, else past the two bytes. -/
def branch (taken : Bool) (r : RegIndex) (s : State) : Except Fault State :=
  if taken then .ok (s.setPc (s.reg r)) else advance 2 s

/-- JEQ (R177): the register is checked whether or not the jump is taken (R94). -/
def execJeq (a : Byte) (s : State) : Host.Outcome State Fault Refusal :=
  complete s (do
    let r ← checkReg a
    branch (equalFlag s.fl) r s)

/-- JNE (R178): the register is checked whether or not the jump is taken (R94). -/
def execJne (a : Byte) (s : State) : Host.Outcome State Fault Refusal :=
  complete s (do
    let r ← checkReg a
    branch (!equalFlag s.fl) r s)

end Sys2Proof.Machine
end

