-- ==== Sys2Proof/Machine/Stack.lean ====
section
/-! DEFINITION. The instructions PUSH and POP (R150 to R155). -/

namespace Sys2Proof.Machine

/-- PUSH (R153): the register is read after the decrement, so PUSH R7 pushes the decremented SP. -/
def execPush (a : Byte) (s : State) : Host.Outcome State Fault Refusal :=
  complete s (do
    let r ← checkReg a
    let s1 ← spDec s
    let s2 ← memWrite s1.sp.toNat (s1.reg r) s1
    advance 2 s2)

/-- POP (R154): SP is read after the write to the register, so POP R7 increments the popped value. -/
def execPop (a : Byte) (s : State) : Host.Outcome State Fault Refusal :=
  complete s (do
    let r ← checkReg a
    let v ← memRead s.sp.toNat s
    let s1 ← spInc (s.setReg r v)
    advance 2 s1)

end Sys2Proof.Machine
end

