-- ==== Sys2Proof/Machine/SystemData.lean ====
section
/-! DEFINITION. The instructions HLT, LDI and PRN (R110 to R113). -/

namespace Sys2Proof.Machine

/-- HLT (R111): the machine becomes Halted and pc keeps the address of the HLT. -/
def execHlt (s : State) : Host.Outcome State Fault Refusal :=
  complete s (.ok (s.setStatus .halted))

/-- LDI (R112): the immediate is used unchanged (R75). -/
def execLdi (a b : Byte) (s : State) : Host.Outcome State Fault Refusal :=
  complete s (do
    let r ← checkReg a
    advance 3 (s.setReg r b))

/-- PRN (R113). -/
def execPrn (a : Byte) (s : State) : Host.Outcome State Fault Refusal :=
  complete s (do
    let r ← checkReg a
    advance 2 (s.emit (s.reg r)))

end Sys2Proof.Machine
end

