-- ==== Sys2Proof/Machine/Dispatch.lean ====
section
/-! DEFINITION. The dispatch of an instruction to its meaning: one arm per constructor. -/

namespace Sys2Proof.Machine

/-- The register checks and the rule of the instruction, at the state whose pc is its address (R94,
R95); the engine adds nothing after it. -/
def exec (i : Instr) (s : State) : Host.Outcome State Fault Refusal :=
  match i with
  | .hlt => Sys2Proof.Machine.execHlt s
  | .ldi a b => Sys2Proof.Machine.execLdi a b s
  | .prn a => Sys2Proof.Machine.execPrn a s
  | .mul a b => Sys2Proof.Machine.execMul a b s
  | .add a b => Sys2Proof.Machine.execAdd a b s
  | .cmp a b => Sys2Proof.Machine.execCmp a b s
  | .push a => Sys2Proof.Machine.execPush a s
  | .pop a => Sys2Proof.Machine.execPop a s
  | .call a => Sys2Proof.Machine.execCall a s
  | .ret => Sys2Proof.Machine.execRet s
  | .jmp a => Sys2Proof.Machine.execJmp a s
  | .jeq a => Sys2Proof.Machine.execJeq a s
  | .jne a => Sys2Proof.Machine.execJne a s

end Sys2Proof.Machine
end

