-- ==== Sys2Proof/Machine/Fetch.lean ====
section
/-! DEFINITION. The fetch of three bytes (R92), the decode of the opcode (R93), the cycle of a Running
machine (R99), and where an instruction is placed so that the next fetch finds it. -/

namespace Sys2Proof.Machine

/-- The opcode and the two candidate operand bytes, latched for one instruction (R39). -/
structure Fetched where
  op : Byte
  a : Byte
  b : Byte
deriving DecidableEq, Repr

/-- `Fetch()`: the bytes at pc, pc + 1 and pc + 2, in that order, all three always read (R92). -/
def fetch (s : State) : Except Fault Fetched := do
  let op ← memRead s.pc.toNat s
  let a ← memRead (s.pc.toNat + 1) s
  let b ← memRead (s.pc.toNat + 2) s
  return ⟨op, a, b⟩

/-- The decoder's answer as a primitive of the step: no entry raises InvalidOpcode (R93). -/
def decodeFetched (f : Fetched) : Except Fault Instr :=
  match decode f.op f.a f.b with
  | .ok i => .ok i
  | .error _ => .error (.invalidOpcode f.op)

/-- Fetch, then decode (R99). -/
def fetchDecode (s : State) : Except Fault Instr := do
  let f ← fetch s
  decodeFetched f

/-- One cycle in Running: fetch, decode, then the register checks and the rule of the instruction
(R99). A fault of fetch or decode is entered here, one of the execution in the meaning (R98). -/
def cycle (s : State) : Host.Outcome State Fault Refusal :=
  match fetchDecode s with
  | .ok i => exec i s
  | .error f => .next (s.enterFault f)

/-- A step in Ready, Halted or Faulted: no fetch happens and no state changes (R91; log 4). -/
def idle (s : State) : Host.Outcome State Fault Refusal := .next s

/-- Where an instruction is placed for the next fetch: at pc, or at 0 when pc is 254 or 255, where no
instruction can be fetched (R92; log 25). -/
def State.fetchSlot (s : State) : Byte := if s.pc.toNat ≤ 253 then s.pc else Config.pcReset

/-- The three bytes of `w` at ascending addresses from `addr` (R57). -/
def State.placeWord (s : State) (addr w : Nat) : State :=
  ((s.setByte addr (byteOfWord w 0)).setByte (addr + 1) (byteOfWord w 1)).setByte (addr + 2)
    (byteOfWord w 2)

/-- The machine started at `pc` with no fault recorded: what `run` leaves after the host wrote pc
(R42, R43). -/
def State.startAt (s : State) (pc : Byte) : State :=
  { s with pc := pc, status := .running, fault := none }

end Sys2Proof.Machine
end

