-- ==== Sys2Proof/Machine/Step.lean ====
section
/-! DEFINITION. One step of the machine (R99), and the placing of an instruction where the next step
fetches it. -/

namespace Sys2Proof.Machine

/-- One step: a cycle in Running (R99), nothing in the three other states (R91). -/
def step (s : State) : Host.Outcome State Fault Refusal :=
  match s.status with
  | .ready => idle s
  | .running => cycle s
  | .halted => idle s
  | .faulted => idle s

/-- `s` with an instruction (the bits of `w` below `nbits`, all higher bits 0) in the three bytes the
next step fetches, and Running: what the host does by loading, writing pc where it must, and `run`
(R213; log 5, log 25). -/
def State.withFetchWord (s : State) (nbits w : Nat) : State :=
  (s.placeWord s.fetchSlot.toNat (wordBits nbits w)).startAt s.fetchSlot

end Sys2Proof.Machine
end

