-- ==== Sys2Proof/Machine/Ports.lean ====
section
/-! DEFINITION. The block's interface as transactions (R40 to R46, Table H1). A host transaction is a
function beside `step`: it happens between steps, and the architectural state holds no queue of them
(R20; log 7). The memory port (R41) is `memRead` and `memWrite`. -/

namespace Sys2Proof.Machine

/-- The transactions of the control port (R42) and the writes of the state-access port (R43). -/
inductive PortCmd where
  /-- Accepted in every state. -/
  | reset
  /-- Accepted in Ready only; no effect elsewhere. -/
  | run
  /-- The host writes one memory cell, in Ready. -/
  | writeMem (addr : Int) (v : Byte)
  /-- The host writes one of R0 to R7, in Ready. -/
  | writeReg (r : RegIndex) (v : Byte)
  /-- The host writes FL, in Ready, one of the four values of R29. -/
  | writeFl (v : Byte)
  /-- The host writes pc, in Ready. -/
  | writePc (v : Byte)
deriving DecidableEq, Repr

/-- What the host gets back (Table H1). -/
inductive PortReply where
  | ok
  /-- A memory address outside 0 to 255 (R51, R52). -/
  | outOfBounds (addr : Int)
  /-- The transaction does not exist in this state or for this value (I17; log 8). -/
  | refused
deriving DecidableEq, Repr

/-- A write of the state-access port, guarded by the state it is accepted in (R43). -/
def readyOnly (s : State) (t : PortReply × State) : PortReply × State :=
  if s.status = .ready then t else (.refused, s)

/-- A host's write of a memory cell through the memory's own check (R43, R52). -/
def hostWriteMem (addr : Int) (v : Byte) (s : State) : PortReply × State :=
  match memWrite addr v s with
  | .ok t => (.ok, t)
  | .error _ => (.outOfBounds addr, s)

/-- One transaction of the host: the reply and the state after it. -/
def port (c : PortCmd) (s : State) : PortReply × State :=
  match c with
  | .reset => (.ok, State.reset)
  | .run => (.ok, if s.status = .ready then s.setStatus .running else s)
  | .writeMem addr v => readyOnly s (hostWriteMem addr v s)
  | .writeReg r v => readyOnly s (.ok, s.setReg r v)
  | .writeFl v => readyOnly s (if v ∈ legalFlags then (.ok, s.setFl v) else (.refused, s))
  | .writePc v => readyOnly s (.ok, s.setPc v)

/-- The bytes written at `k`, `k + 1`, ... in order; the first refused write ends it. -/
def loadFrom (k : Nat) (bytes : List Byte) (s : State) : PortReply × State :=
  match bytes with
  | [] => (.ok, s)
  | v :: rest =>
    match port (.writeMem k v) s with
    | (.ok, t) => loadFrom (k + 1) rest t
    | (.outOfBounds addr, t) => (.outOfBounds addr, t)
    | (.refused, t) => (.refused, t)

/-- Loading an image's bytes from address 0, in Ready (R212; log 9). -/
def load (bytes : List Byte) (s : State) : PortReply × State :=
  readyOnly s (loadFrom Config.loadBase bytes s)

/-- What the host may read: the whole record, in every state but Running (R43). -/
def observe (s : State) : Option State := if s.status = .running then none else some s

/-- The status port: `status` and `fault` "at all times" (R44). -/
def statusPort (s : State) : Status × Option FaultRecord := (s.status, s.fault)

/-- The source's boolean: `running = (status = Running)` (R33, C8). -/
def State.running (s : State) : Bool := decide (s.status = .running)

/-- The code of a fault kind (Table X1). -/
def Fault.code : Fault → Nat
  | .outOfBounds _ => 1
  | .invalidRegister _ => 2
  | .invalidOpcode _ => 3
  | .unsupportedOperation _ => 4

/-- The `kind` field as the host reads it: 0 when no fault is recorded (Table X1). -/
def State.faultCode (s : State) : Nat :=
  match s.fault with
  | none => 0
  | some r => r.cause.code

/-- One record of the trace port (R46). -/
structure TraceRecord where
  pc : Byte
  op : Byte
  a : Byte
  b : Byte
  x : Vector Byte 8
deriving DecidableEq, Repr

/-- The record a step from `s` delivers when the trace is enabled: after a successful fetch and before
the instruction executes; none for a step whose fetch faults, and none outside Running (R46, D24). -/
def traceRecord (s : State) : Option TraceRecord :=
  match s.status with
  | .running =>
    match fetch s with
    | .ok f => some ⟨s.pc, f.op, f.a, f.b, s.x⟩
    | .error _ => none
  | .ready => none
  | .halted => none
  | .faulted => none

/-- One hexadecimal digit, upper case. -/
def hexDigit (n : Nat) : Char := Char.ofNat (if n < 10 then 48 + n else 55 + n)

/-- A field of the trace line: "two-digit uppercase hexadecimal" (R46). -/
def hexField (v : Byte) : String := String.ofList [hexDigit (v.toNat / 16), hexDigit (v.toNat % 16)]

/-- The line the host prints for one byte of the output port: its decimal digits and the host's own
line end (R45, decision D26). -/
def outputLine (v : Byte) : String := toString v.toNat ++ Config.outputLineEnd

/-- The text of the whole output log, one line per PRN (R45). -/
def outputText (s : State) : String := String.join (s.out.map outputLine)

end Sys2Proof.Machine
end

