-- ==== Sys2Proof/Machine/Image.lean ====
section
/-! DEFINITION. The program image as the external loader reads it (R84, decision D25): text lines to
bytes, and the load of the bytes (R212). The loader is outside the CORE (R5); it is given here at its
interface. -/

namespace Sys2Proof.Machine

/-- What one line of an image holds. -/
inductive ImageLine where
  /-- A blank or comment-only line: skipped. -/
  | skip
  | byte (v : Byte)
  /-- Not 8 characters of `0` and `1` before any `#`: the loader refuses the image. -/
  | malformed
deriving DecidableEq, Repr

/-- The value of a binary literal, its first character the most significant bit (R84); none if a
character is neither `0` nor `1`. -/
def binaryValue (acc : Nat) (cs : List Char) : Option Nat :=
  match cs with
  | [] => some acc
  | c :: rest =>
    if c = '0' then binaryValue (2 * acc) rest
    else if c = '1' then binaryValue (2 * acc + 1) rest
    else none

/-- The characters before any comment (R84). -/
def beforeComment (line : List Char) : List Char := line.takeWhile fun c => c != '#'

/-- A space or a tab (log 10). -/
def isBlank (c : Char) : Bool := c == ' ' || c == '\t'

/-- The text without the spaces and tabs at its end. -/
def dropTrailing (cs : List Char) : List Char := (cs.reverse.dropWhile isBlank).reverse

/-- The text of a line's literal. The gap between a literal and its comment belongs to the format, as
R84's own example line `10000010 # LDI R0,8` shows, and is dropped for every loader; it is neither
leading nor trailing white space of the line, which is all that D25 leaves open. -/
def literalText (line : List Char) : List Char :=
  let cs := beforeComment line
  if line.contains '#' && !cs.all isBlank then dropTrailing cs else cs

/-- The text without leading and trailing spaces and tabs, where the loader accepts them. -/
def trimIf (accept : Bool) (cs : List Char) : List Char :=
  if accept then dropTrailing (cs.dropWhile isBlank) else cs

/-- One line, for a loader that accepts surrounding white space or does not (log 10). -/
def parseLine (accept : Bool) (line : List Char) : ImageLine :=
  let cs := trimIf accept (literalText line)
  if cs.isEmpty then .skip
  else if cs.length = 8 then
    match binaryValue 0 cs with
    | some n => .byte (BitVec.ofNat 8 n)
    | none => .malformed
  else .malformed

/-- The bytes of an image, in file order; none if a line is malformed. -/
def parseImage (accept : Bool) (lines : List (List Char)) : Option (List Byte) :=
  match lines with
  | [] => some []
  | line :: rest =>
    match parseLine accept line with
    | .skip => parseImage accept rest
    | .byte v => (parseImage accept rest).map fun vs => v :: vs
    | .malformed => none

/-- The loader: a malformed image is refused and the block is never given a byte (I2); else its bytes
are loaded (R212). -/
def loadImage (lines : List (List Char)) (s : State) : PortReply × State :=
  match parseImage Config.imageWhitespace lines with
  | some bytes => load bytes s
  | none => (.refused, s)

/-! The lines of R84 written out, for claims about images. -/

/-- The 8-character literal of a byte, bit 7 first (R84). -/
def binaryLiteral (v : Byte) : List Char :=
  [7, 6, 5, 4, 3, 2, 1, 0].map fun k => if v.getLsbD k then '1' else '0'

/-- A line of the form R84 gives: a byte or none, and a comment or none. A comment after a byte has
`gap` spaces before its `#`. -/
structure ImageRow where
  value : Option Byte
  gap : Nat
  comment : Option (List Char)
deriving DecidableEq, Repr

/-- The text of a line (R84). -/
def ImageRow.text (r : ImageRow) : List Char :=
  match r.value, r.comment with
  | some v, some c => binaryLiteral v ++ List.replicate r.gap ' ' ++ '#' :: c
  | some v, none => binaryLiteral v
  | none, some c => '#' :: c
  | none, none => []

end Sys2Proof.Machine
end

