-- ==== Sys2Proof/Safety.lean ====
section
/-! DEFINITION. The vocabulary of claims: which states are sound, what an instruction may change, where
a step faults according to Table X2, and which states a run can reach. -/

namespace Sys2Proof.Machine

/-- The fault kinds and informations a run can record (R192, R193): never UnsupportedOperation. -/
def Fault.possible : Fault → Prop
  | .outOfBounds addr => addr = -1 ∨ addr = 256
  | .invalidRegister r => 8 ≤ r.toNat
  | .invalidOpcode op => opcodeRow op = none
  | .unsupportedOperation _ => False

/-- The invariant of the machine: memory in its canonical form, FL one of its four values (R29), a
fault recorded exactly in Faulted, with the pc kept at the faulting instruction (R34, R98), and only a
fault of Table X2 (R193). -/
structure State.Inv (s : State) : Prop where
  memWf : s.mem.wf
  flagsLegal : s.fl ∈ legalFlags
  faultIffFaulted : s.status = .faulted ↔ s.fault.isSome
  faultPossible : ∀ r, s.fault = some r → r.faultPc = s.pc ∧ r.cause.possible

/-- A run has ended exactly when status is Halted or Faulted (R44, R215). -/
def State.ended (s : State) : Prop := s.status = .halted ∨ s.status = .faulted

/-- "A Halted run with fault = none is a normal end" (R215). -/
def State.normalEnd (s : State) : Prop := s.status = .halted ∧ s.fault = none

/-- Every register outside the list is unchanged. -/
def State.KeepsRegsBut (s : State) (rs : List RegIndex) (t : State) : Prop :=
  ∀ q, q ∉ rs → t.reg q = s.reg q

/-- Every byte of memory is unchanged. -/
def State.KeepsMemory (s t : State) : Prop := ∀ addr, t.byteAt addr = s.byteAt addr

/-- Every byte of memory but the one at an address is unchanged. -/
def State.KeepsMemoryBut (s : State) (addr : Nat) (t : State) : Prop :=
  ∀ b, b ≠ addr → t.byteAt b = s.byteAt b

/-- The machine state and the fault record are unchanged: no halt and no fault. -/
def State.KeepsControl (s t : State) : Prop := t.status = s.status ∧ t.fault = s.fault

/-- The outcome of a step from `s` that raised `f`: Faulted, the record (f, pc), and every other
field as it was (R97, R98). -/
def Faults (o : Host.Outcome State Fault Refusal) (s : State) (f : Fault) : Prop :=
  o = .next { s with status := .faulted, fault := some ⟨f, s.pc⟩ }

/-- The registers an instruction writes (Table S1): `ra` is the register byte `a` names. -/
def writtenRegs : Instr → List Nat
  | .hlt => []
  | .ldi a _ => [a.toNat]
  | .prn _ => []
  | .mul a _ => [a.toNat]
  | .add a _ => [a.toNat]
  | .cmp _ _ => []
  | .push _ => [7]
  | .pop a => [a.toNat, 7]
  | .call _ => [7]
  | .ret => [7]
  | .jmp _ => []
  | .jeq _ => []
  | .jne _ => []

/-- The value of SP after `SPDec`, the operation PUSH and CALL address their store with (R151). -/
def decrementedSp (s : State) : Option Nat :=
  match spDec s with
  | .ok t => some t.sp.toNat
  | .error _ => none

/-- The address an instruction stores its one byte to, when it completes (R54). -/
def storeAddress (i : Instr) (s : State) : Option Nat :=
  match i with
  | .push _ => decrementedSp s
  | .call _ => decrementedSp s
  | .hlt => none
  | .ldi _ _ => none
  | .prn _ => none
  | .mul _ _ => none
  | .add _ _ => none
  | .cmp _ _ => none
  | .pop _ => none
  | .ret => none
  | .jmp _ => none
  | .jeq _ => none
  | .jne _ => none

/-- The operand bytes of an instruction that are register indices, in the order they are checked
(R94). -/
def registerBytes : Instr → List Byte
  | .hlt => []
  | .ldi a _ => [a]
  | .prn a => [a]
  | .mul a b => [a, b]
  | .add a b => [a, b]
  | .cmp a b => [a, b]
  | .push a => [a]
  | .pop a => [a]
  | .call a => [a]
  | .ret => []
  | .jmp a => [a]
  | .jeq a => [a]
  | .jne a => [a]

/-- The fault of the execution primitives of an instruction with valid registers, read from Table X2:
SPDec at SP = 0, SPInc at SP = 255 (for POP R7, at a popped value of 255), a 3-byte instruction at
253. -/
def executionFault (i : Instr) (s : State) : Option Fault :=
  match i with
  | .push _ => if s.sp = 0 then some (.outOfBounds (-1)) else none
  | .call _ => if s.sp = 0 then some (.outOfBounds (-1)) else none
  | .pop a =>
    if a.toNat = 7 then
      (if s.byteAt s.sp.toNat = 255 then some (.outOfBounds 256) else none)
    else (if s.sp = 255 then some (.outOfBounds 256) else none)
  | .ret => if s.sp = 255 then some (.outOfBounds 256) else none
  | .ldi _ _ => if s.pc = 253 then some (.outOfBounds 256) else none
  | .mul _ _ => if s.pc = 253 then some (.outOfBounds 256) else none
  | .add _ _ => if s.pc = 253 then some (.outOfBounds 256) else none
  | .cmp _ _ => if s.pc = 253 then some (.outOfBounds 256) else none
  | .hlt => none
  | .prn _ => none
  | .jmp _ => none
  | .jeq _ => none
  | .jne _ => none

/-- The instruction at pc, from the three bytes there (R92, R93). -/
def State.instrAtPc (s : State) : Except DecodeError Instr :=
  decode (s.byteAt s.pc.toNat) (s.byteAt (s.pc.toNat + 1)) (s.byteAt (s.pc.toNat + 2))

/-- The step from `s` to `t` stored a byte at an address: the instruction at pc stores there and did not
fault (R54, R97). -/
def StoresAt (s t : State) (addr : Nat) : Prop :=
  t.status ≠ .faulted ∧ ∃ i, s.instrAtPc = .ok i ∧ storeAddress i s = some addr

/-- What two states agree in when only memory may differ: every other field of the record. -/
structure State.SameButMemory (s t : State) : Prop where
  status : t.status = s.status
  x : t.x = s.x
  fl : t.fl = s.fl
  pc : t.pc = s.pc
  fault : t.fault = s.fault
  out : t.out = s.out

/-- The fault Table X2 (R193) gives the step of a Running state, in the order of R194: the fetch, the
opcode, the registers `a` then `b`, the execution. Written from the table, not from the primitives. -/
def faultSite (s : State) : Option Fault :=
  if s.pc.toNat ≥ 254 then some (.outOfBounds 256)
  else
    match decode (s.byteAt s.pc.toNat) (s.byteAt (s.pc.toNat + 1)) (s.byteAt (s.pc.toNat + 2)) with
    | .error _ => some (.invalidOpcode (s.byteAt s.pc.toNat))
    | .ok i =>
      match (registerBytes i).find? (fun r => decide (8 ≤ r.toNat)) with
      | some r => some (.invalidRegister r)
      | none => executionFault i s

/-- The states a host and the machine can bring about from reset: any transactions (R214), any steps. -/
inductive Reachable : State → Prop where
  | reset : Reachable State.reset
  | step {s t : State} : Reachable s → step s = .next t → Reachable t
  | port {s : State} (c : PortCmd) : Reachable s → Reachable (port c s).2

end Sys2Proof.Machine
end

