-- ==== Sys2Proof/Certificates/Slice0/Obligations.lean ====
section
/-! DEFINITION. The statements for the provers. Each docstring names the rule of `spec/` it formalises;
where a clause rests on one of the spec's own decisions D<n> (no statement of the source), the
docstring says so and names the log entry. A fault of the spec is a next state of the model
(`Faults`, log 3). A statement about `exec` at pc 254 or 255 is about a state no step executes in
(R92), so those pcs are left to `FetchFaultsInTheTopTwoCells`. -/

open Sys2Proof Sys2Proof.Machine

/-! ## Reset and the host's transactions -/

/-- Table S2: what reset leaves. The values of R0 to R6, FL and pc, and the index 7 of the stack
pointer, are the spec's own choices (D1, D3, D4, D5; log 1, log 2). -/
def Obligations.ResetLeavesTableS2 : Prop :=
  (∀ r : RegIndex, State.reset.reg r = if r = 7 then 0xF4#8 else 0x00#8) ∧
  State.reset.fl = 0x00#8 ∧ State.reset.pc = 0x00#8 ∧ State.reset.status = .ready ∧
  State.reset.fault = none ∧ (∀ addr, State.reset.byteAt addr = 0x00#8) ∧ State.reset.out = []

/-- Outside Running no fetch happens (no trace record either) and a step changes nothing (R91). That a
step exists there at all and answers the same state is the model's totality (log 4: R99 gives Step only
in Running); the record is the trace port's (R46, D24; log 22). -/
def Obligations.NothingMovesOutsideRunning : Prop :=
  ∀ s : State, s.status ≠ .running → step s = .next s ∧ traceRecord s = none

/-- The `run` transaction: Ready to Running and nothing else; no effect in any other state (R42, and
D21 for the other states; log 21). -/
def Obligations.RunStartsOnlyFromReady : Prop :=
  ∀ s : State,
    (s.status = .ready → port .run s = (.ok, { s with status := .running })) ∧
    (s.status ≠ .ready → port .run s = (.ok, s))

/-- Halted and Faulted are terminal: no step and no transaction but `reset` changes anything, and
`reset` gives the reset state (R90, R196). That a step there is the identity is the model's choice
(R91; log 4), that the host's writes change nothing there is R43 with decision D19 (log 8), and that a
reset exists and `run` has no effect there are D20 and D21 (log 21). -/
def Obligations.OnlyResetLeavesTheTerminalStates : Prop :=
  ∀ s : State, s.ended →
    step s = .next s ∧ (∀ c : PortCmd, c ≠ .reset → (port c s).2 = s) ∧
    port .reset s = (.ok, State.reset)

/-- The writes of the state-access port: accepted in Ready with their effect, refused elsewhere and
for an FL value outside the four of R29 (R43, Table H1, D19; log 8). -/
def Obligations.HostWritesOnlyInReady : Prop :=
  ∀ (s : State) (addr : Int) (r : RegIndex) (v : Byte),
    (s.status ≠ .ready →
      port (.writeMem addr v) s = (.refused, s) ∧ port (.writeReg r v) s = (.refused, s) ∧
      port (.writeFl v) s = (.refused, s) ∧ port (.writePc v) s = (.refused, s)) ∧
    (s.status = .ready →
      (0 ≤ addr → addr < 256 → ∃ t, port (.writeMem addr v) s = (.ok, t) ∧
        t.byteAt addr.toNat = v ∧ s.KeepsMemoryBut addr.toNat t ∧ s.KeepsRegsBut [] t ∧
        t.fl = s.fl ∧ t.pc = s.pc ∧ t.out = s.out ∧ s.KeepsControl t) ∧
      (addr < 0 ∨ 256 ≤ addr → port (.writeMem addr v) s = (.outOfBounds addr, s)) ∧
      (∃ t, port (.writeReg r v) s = (.ok, t) ∧ t.reg r = v ∧ s.KeepsRegsBut [r] t ∧
        s.KeepsMemory t ∧ t.fl = s.fl ∧ t.pc = s.pc ∧ t.out = s.out ∧ s.KeepsControl t) ∧
      (v = 0x00#8 ∨ v = 0x01#8 ∨ v = 0x02#8 ∨ v = 0x04#8 →
        port (.writeFl v) s = (.ok, { s with fl := v })) ∧
      (v ≠ 0x00#8 → v ≠ 0x01#8 → v ≠ 0x02#8 → v ≠ 0x04#8 → port (.writeFl v) s = (.refused, s)) ∧
      port (.writePc v) s = (.ok, { s with pc := v }))

/-- Loading (R212): in Ready an image of at most 256 bytes lands at addresses 0 upwards, and nothing
else changes. -/
def Obligations.LoadWritesTheImageFromZero : Prop :=
  ∀ (bytes : List Byte) (s : State), s.status = .ready → bytes.length ≤ 256 →
    ∃ t, load bytes s = (.ok, t) ∧
      (∀ (k : Nat) (hk : k < bytes.length), t.byteAt k = bytes[k]) ∧
      (∀ k, bytes.length ≤ k → t.byteAt k = s.byteAt k) ∧
      s.KeepsRegsBut [] t ∧ t.fl = s.fl ∧ t.pc = s.pc ∧ t.out = s.out ∧ s.KeepsControl t

/-- An image of more than 256 bytes: the write of byte 256 fails with OutOfBounds and the block stays
in Ready (R212, D25; that the first 256 bytes were written is the model's reading, log 9). -/
def Obligations.OversizeImageIsRefused : Prop :=
  ∀ (bytes : List Byte) (s : State), s.status = .ready → 256 < bytes.length →
    ∃ t, load bytes s = (.outOfBounds 256, t) ∧ t.status = .ready ∧
      ∀ (k : Nat) (hk : k < 256) (hb : k < bytes.length), t.byteAt k = bytes[k]

/-- Images (R84, R212): the loader loads the bytes of the lines in file order, bit 7 first (general
knowledge, G3), skipping blank and comment-only lines; a gap of spaces before a byte's comment is part of
the format and makes no difference. A line malformed for every loader refuses the whole image, and the
block keeps its state (I2, D25). White space at a line's ends, which the spec leaves open (I3), is in
neither clause (log 10). -/
def Obligations.ImageLoadsItsLinesInFileOrder : Prop :=
  (∀ (rows : List ImageRow) (s : State),
    loadImage (rows.map ImageRow.text) s = load (rows.filterMap ImageRow.value) s) ∧
  ∀ (lines : List (List Char)) (line : List Char) (s : State), line ∈ lines →
    (∀ accept, parseLine accept line = .malformed) → loadImage lines s = (.refused, s)

/-! ## One step -/

/-- A step runs the decoded instruction (R92, R93, R95, R99): when the bytes at pc, pc + 1 and pc + 2
decode to `i`, the step is `exec i` at that very state, and the engine adds no pc increment. -/
def Obligations.StepRunsTheDecodedInstruction : Prop :=
  ∀ (s : State) (i : Instr), s.status = .running → s.pc.toNat ≤ 253 →
    decode (s.byteAt s.pc.toNat) (s.byteAt (s.pc.toNat + 1)) (s.byteAt (s.pc.toNat + 2)) = .ok i →
    step s = exec i s

/-- The candidate bytes are always read (R92, the spec's decision D7; log 15): a step at 254 or 255
faults with OutOfBounds(256), whatever the bytes, HLT included. -/
def Obligations.FetchFaultsInTheTopTwoCells : Prop :=
  ∀ s : State, s.status = .running → 254 ≤ s.pc.toNat → Faults (step s) s (.outOfBounds 256)

/-- R78: exactly 13 opcode bytes decode, the other 243 are illegal, and fetching an illegal one makes
the machine Faulted with InvalidOpcode(op). The pc is one whose fetch succeeds (R92). -/
def Obligations.IllegalOpcodesFault : Prop :=
  let valid : List Byte := [0x01#8, 0x82#8, 0x47#8, 0xA2#8, 0xA0#8, 0xA7#8, 0x45#8] ++
    [0x46#8, 0x50#8, 0x11#8, 0x54#8, 0x55#8, 0x56#8]
  (∀ op a b : Byte, (∃ i, decode op a b = .ok i) ↔ op ∈ valid) ∧
  ((List.range 256).filter fun n => !valid.contains (BitVec.ofNat 8 n)).length = 243 ∧
  ∀ s : State, s.status = .running → s.pc.toNat ≤ 253 → s.byteAt s.pc.toNat ∉ valid →
    ∃ t r, step s = .next t ∧ t.status = .faulted ∧ t.fault = some r ∧
      r.cause = .invalidOpcode (s.byteAt s.pc.toNat)

/-- The step is total: from every state it ends in a next state, never in a refusal. In Running a fault
of the spec is a next state too (R97, R98; log 3). In Ready, Halted and Faulted the claim is the model's
choice (log 4): R99 gives Step only in Running. -/
def Obligations.EveryStepEndsInANextState : Prop :=
  ∀ s : State, ∃ t, step s = .next t

/-! ## Encoding -/

/-- The encoder and the decoder agree on every instruction and all operand values (Tables E1 and E2,
R57, R70, R73): bytes decode to `i` exactly when they begin with the encoding of `i`, and what
follows an encoding is not looked at. -/
def Obligations.DecodeAgreesWithEncode : Prop :=
  (∀ (i : Instr) (p q : Byte) (rest : List Byte),
    decodeBytes (encode i ++ p :: q :: rest) = .ok i) ∧
  (∀ (i : Instr) (op a b : Byte), decode op a b = .ok i ↔ encode i <+: [op, a, b]) ∧
  (∀ i j : Instr, encode i <+: encode j → i = j)

/-- R71: the operand count is the opcode's bits 7:6, so the length is 1 more; the count of the matched
table row is the same number for every valid opcode. -/
def Obligations.OperandCountIsTheTopTwoBits : Prop :=
  (∀ i : Instr, ∃ op operands, encode i = op :: operands ∧
    operands.length = (op.extractLsb' 6 2).toNat ∧ i.length = 1 + (op.extractLsb' 6 2).toNat) ∧
  ∀ (op : Byte) (row : OpcodeRow), opcodeRow op = some row →
    row.format.length = 1 + (op.extractLsb' 6 2).toNat

/-- One word of every instruction, written out from Table E2's binary column (R77). -/
def Obligations.TableWordsDecode : Prop :=
  decode 0b00000001#8 0xAA#8 0xBB#8 = .ok .hlt ∧
  decode 0b10000010#8 0x03#8 0xFF#8 = .ok (.ldi 0x03#8 0xFF#8) ∧
  decode 0b01000111#8 0x05#8 0xBB#8 = .ok (.prn 0x05#8) ∧
  decode 0b10100010#8 0x00#8 0x01#8 = .ok (.mul 0x00#8 0x01#8) ∧
  decode 0b10100000#8 0x02#8 0x07#8 = .ok (.add 0x02#8 0x07#8) ∧
  decode 0b10100111#8 0x06#8 0x04#8 = .ok (.cmp 0x06#8 0x04#8) ∧
  decode 0b01000101#8 0x07#8 0xBB#8 = .ok (.push 0x07#8) ∧
  decode 0b01000110#8 0x04#8 0xBB#8 = .ok (.pop 0x04#8) ∧
  decode 0b01010000#8 0x01#8 0xBB#8 = .ok (.call 0x01#8) ∧
  decode 0b00010001#8 0xAA#8 0xBB#8 = .ok .ret ∧
  decode 0b01010100#8 0x03#8 0xBB#8 = .ok (.jmp 0x03#8) ∧
  decode 0b01010101#8 0x02#8 0xBB#8 = .ok (.jeq 0x02#8) ∧
  decode 0b01010110#8 0x09#8 0xBB#8 = .ok (.jne 0x09#8)

/-- R76: the fetched bytes that are no operand of the decoded instruction (both for F0, the byte at
pc + 2 for F1R) have no effect as operands. With any other value `v` in such a byte `k` the same
instruction runs; and the two steps end alike in status, registers, FL, pc, fault and output and in every
byte but `k`, which keeps `v` unless the instruction stores there, where both steps store the same. POP
and RET may read byte `k` as data when SP is `k`; there the first clause alone holds. -/
def Obligations.UnusedOperandBytesAreIgnored : Prop :=
  ∀ (s : State) (i : Instr) (v : Byte) (k : Nat), s.status = .running → s.pc.toNat ≤ 253 →
    s.instrAtPc = .ok i →
    (k = s.pc.toNat + 1 ∧ i.format = .F0) ∨
      (k = s.pc.toNat + 2 ∧ (i.format = .F0 ∨ i.format = .F1R)) →
    step (s.setByte k v) = exec i (s.setByte k v) ∧
    ((i.mnemonic = .POP ∨ i.mnemonic = .RET → s.sp.toNat ≠ k) →
      ∃ t u, step s = .next t ∧ step (s.setByte k v) = .next u ∧ t.SameButMemory u ∧
        t.KeepsMemoryBut k u ∧
        (StoresAt s t k → u.byteAt k = t.byteAt k) ∧ (¬StoresAt s t k → u.byteAt k = v))

/-! ## Registers, operands, memory, ALU -/

/-- R21: `x[i] <- v` writes register `i` and `x[i]` reads it, for each of the eight registers. -/
def Obligations.RegisterReadsWhatWasWritten : Prop :=
  ∀ (s : State) (r : RegIndex) (v : Byte),
    (s.setReg r v).reg r = v ∧ ∀ q : RegIndex, q ≠ r → (s.setReg r v).reg q = s.reg q

/-- R22: an index is valid if and only if it is less than 8; any other fails with InvalidRegister and
is never reduced modulo 8; an instruction that holds such an operand byte faults. -/
def Obligations.RegisterIndexBelowEightOnly : Prop :=
  (∀ a : Byte,
    (a.toNat < 8 → ∃ r, checkReg a = .ok r ∧ r.val = a.toNat) ∧
    (8 ≤ a.toNat → checkReg a = .error (.invalidRegister a))) ∧
  ∀ (i : Instr) (s : State), i.wellFormed = false →
    ∃ t r b, exec i s = .next t ∧ t.status = .faulted ∧ t.fault = some r ∧
      b ∈ registerBytes i ∧ 8 ≤ b.toNat ∧ r.cause = .invalidRegister b

/-- The register check comes before every effect, `a` before `b`, whether or not the instruction then
uses the register (R94; that unused operands are checked and the order are the spec's decisions D16
and D12, log 17). `find?` gives the first invalid register byte. -/
def Obligations.FirstInvalidRegisterFaults : Prop :=
  ∀ (i : Instr) (s : State) (b : Byte),
    (registerBytes i).find? (fun r => decide (8 ≤ r.toNat)) = some b →
    Faults (exec i s) s (.invalidRegister b)

/-- R51, R52, R53: an access in 0 to 255 reads or overwrites that one cell, unconditionally; any other
address, 256 included, reports OutOfBounds and is never wrapped. -/
def Obligations.MemoryAccessesAreBoundsChecked : Prop :=
  ∀ (addr : Int) (v : Byte) (s : State),
    (0 ≤ addr → addr ≤ 255 →
      memRead addr s = .ok (s.byteAt addr.toNat) ∧
      ∃ t, memWrite addr v s = .ok t ∧ t.byteAt addr.toNat = v ∧ s.KeepsMemoryBut addr.toNat t ∧
        s.KeepsRegsBut [] t ∧ t.fl = s.fl ∧ t.pc = s.pc ∧ t.out = s.out ∧ s.KeepsControl t) ∧
    (addr < 0 ∨ 256 ≤ addr →
      memRead addr s = .error (.outOfBounds addr) ∧ memWrite addr v s = .error (.outOfBounds addr))

/-- R131, R132, R133: the three operations of the ALU on unsigned bytes. -/
def Obligations.AluComputesItsThreeOperations : Prop :=
  ∀ p q : Byte,
    (∃ r, alu .ADD p q = (some r, none) ∧ r.toNat = (p.toNat + q.toNat) % 256) ∧
    (∃ r, alu .MUL p q = (some r, none) ∧ r.toNat = (p.toNat * q.toNat) % 256) ∧
    (p.toNat < q.toNat → alu .CMP p q = (none, some 0x04#8)) ∧
    (q.toNat < p.toNat → alu .CMP p q = (none, some 0x02#8)) ∧
    (p.toNat = q.toNat → alu .CMP p q = (none, some 0x01#8))

/-- The ALU's guard (R137, D27; log 11): it raises UnsupportedOperation exactly for a mnemonic outside
ADD, MUL and CMP, and no step of any state records that fault. -/
def Obligations.UnsupportedOperationIsUnreachable : Prop :=
  (∀ (m : Mnemonic) (p q : Byte),
    aluUnit m p q = .error (.unsupportedOperation m) ↔ m ≠ .ADD ∧ m ≠ .MUL ∧ m ≠ .CMP) ∧
  ∀ (s t : State) (r : FaultRecord) (m : Mnemonic), s.fault = none → step s = .next t →
    t.fault = some r → r.cause ≠ .unsupportedOperation m

/-! ## What each instruction does when it completes, and what it leaves

Each says: `exec` answers a next state, what that state holds, and everything else is unchanged. Each
then says where the instruction's own execution faults instead. An invalid register byte is
`FirstInvalidRegisterFaults`. -/

/-- HLT (R111). -/
def Obligations.HltStopsTheMachine : Prop :=
  ∀ s : State, exec .hlt s = .next { s with status := .halted }

/-- LDI (R112). The fault at 253 is `NextPC`'s (the spec's decision D6, log 14). -/
def Obligations.LdiLoadsItsImmediate : Prop :=
  ∀ (a b : Byte) (s : State) (ha : a.toNat < 8),
    (s.pc.toNat ≤ 252 → ∃ t, exec (.ldi a b) s = .next t ∧
      t.reg ⟨a.toNat, ha⟩ = b ∧ s.KeepsRegsBut [⟨a.toNat, ha⟩] t ∧
      t.pc.toNat = s.pc.toNat + 3 ∧ t.fl = s.fl ∧ s.KeepsMemory t ∧ t.out = s.out ∧
      s.KeepsControl t) ∧
    (s.pc.toNat = 253 → Faults (exec (.ldi a b) s) s (.outOfBounds 256))

/-- PRN (R113). -/
def Obligations.PrnAppendsTheRegister : Prop :=
  ∀ (a : Byte) (s : State) (ha : a.toNat < 8), s.pc.toNat ≤ 253 →
    ∃ t, exec (.prn a) s = .next t ∧ t.out = s.out ++ [s.reg ⟨a.toNat, ha⟩] ∧
      s.KeepsRegsBut [] t ∧ t.pc.toNat = s.pc.toNat + 2 ∧ t.fl = s.fl ∧ s.KeepsMemory t ∧
      s.KeepsControl t

/-- MUL (R134): both sources are read before the destination is written, `a = b` included. The fault
at 253 is `NextPC`'s (D6, log 14). -/
def Obligations.MulWritesTheLowProduct : Prop :=
  ∀ (a b : Byte) (s : State) (ha : a.toNat < 8) (hb : b.toNat < 8),
    (s.pc.toNat ≤ 252 → ∃ t, exec (.mul a b) s = .next t ∧
      (t.reg ⟨a.toNat, ha⟩).toNat =
        ((s.reg ⟨a.toNat, ha⟩).toNat * (s.reg ⟨b.toNat, hb⟩).toNat) % 256 ∧
      s.KeepsRegsBut [⟨a.toNat, ha⟩] t ∧ t.pc.toNat = s.pc.toNat + 3 ∧ t.fl = s.fl ∧
      s.KeepsMemory t ∧ t.out = s.out ∧ s.KeepsControl t) ∧
    (s.pc.toNat = 253 → Faults (exec (.mul a b) s) s (.outOfBounds 256))

/-- ADD (R135): no carry, no flag. The fault at 253 is `NextPC`'s (D6, log 14). -/
def Obligations.AddWritesTheLowSum : Prop :=
  ∀ (a b : Byte) (s : State) (ha : a.toNat < 8) (hb : b.toNat < 8),
    (s.pc.toNat ≤ 252 → ∃ t, exec (.add a b) s = .next t ∧
      (t.reg ⟨a.toNat, ha⟩).toNat =
        ((s.reg ⟨a.toNat, ha⟩).toNat + (s.reg ⟨b.toNat, hb⟩).toNat) % 256 ∧
      s.KeepsRegsBut [⟨a.toNat, ha⟩] t ∧ t.pc.toNat = s.pc.toNat + 3 ∧ t.fl = s.fl ∧
      s.KeepsMemory t ∧ t.out = s.out ∧ s.KeepsControl t) ∧
    (s.pc.toNat = 253 → Faults (exec (.add a b) s) s (.outOfBounds 256))

/-- CMP (R136): FL is replaced whole, no register is written. The fault at 253 is `NextPC`'s (D6,
log 14). -/
def Obligations.CmpReplacesTheFlags : Prop :=
  ∀ (a b : Byte) (s : State) (ha : a.toNat < 8) (hb : b.toNat < 8),
    (s.pc.toNat ≤ 252 → ∃ t, exec (.cmp a b) s = .next t ∧
      ((s.reg ⟨a.toNat, ha⟩).toNat < (s.reg ⟨b.toNat, hb⟩).toNat → t.fl = 0x04#8) ∧
      ((s.reg ⟨b.toNat, hb⟩).toNat < (s.reg ⟨a.toNat, ha⟩).toNat → t.fl = 0x02#8) ∧
      (s.reg ⟨a.toNat, ha⟩ = s.reg ⟨b.toNat, hb⟩ → t.fl = 0x01#8) ∧
      s.KeepsRegsBut [] t ∧ t.pc.toNat = s.pc.toNat + 3 ∧ s.KeepsMemory t ∧ t.out = s.out ∧
      s.KeepsControl t) ∧
    (s.pc.toNat = 253 → Faults (exec (.cmp a b) s) s (.outOfBounds 256))

/-- PUSH (R153): SP is decremented, then the register is read and stored at SP, so PUSH R7 stores the
decremented SP (D17, log 19); at SP = 0 it faults (D14, log 18). -/
def Obligations.PushStoresBelowTheStackPointer : Prop :=
  ∀ (a : Byte) (s : State) (ha : a.toNat < 8),
    (1 ≤ s.sp.toNat → s.pc.toNat ≤ 253 → ∃ t, exec (.push a) s = .next t ∧
      t.sp.toNat = s.sp.toNat - 1 ∧ s.KeepsRegsBut [7] t ∧
      t.byteAt (s.sp.toNat - 1) = (if a.toNat = 7 then t.sp else s.reg ⟨a.toNat, ha⟩) ∧
      s.KeepsMemoryBut (s.sp.toNat - 1) t ∧ t.pc.toNat = s.pc.toNat + 2 ∧ t.fl = s.fl ∧
      t.out = s.out ∧ s.KeepsControl t) ∧
    (s.sp.toNat = 0 → Faults (exec (.push a) s) s (.outOfBounds (-1)))

/-- POP (R154): the byte at SP goes to the register, then SP, read after that write, is incremented,
so POP R7 leaves the popped value plus 1 (D17, log 19); an increment from 255 faults (D14, log 18). -/
def Obligations.PopLoadsFromTheStackPointer : Prop :=
  ∀ (a : Byte) (s : State) (ha : a.toNat < 8), s.pc.toNat ≤ 253 →
    (a.toNat ≠ 7 → s.sp.toNat ≤ 254 → ∃ t, exec (.pop a) s = .next t ∧
      t.reg ⟨a.toNat, ha⟩ = s.byteAt s.sp.toNat ∧ t.sp.toNat = s.sp.toNat + 1 ∧
      s.KeepsRegsBut [⟨a.toNat, ha⟩, 7] t ∧ s.KeepsMemory t ∧ t.pc.toNat = s.pc.toNat + 2 ∧
      t.fl = s.fl ∧ t.out = s.out ∧ s.KeepsControl t) ∧
    (a.toNat = 7 → (s.byteAt s.sp.toNat).toNat ≤ 254 → ∃ t, exec (.pop a) s = .next t ∧
      t.sp.toNat = (s.byteAt s.sp.toNat).toNat + 1 ∧ s.KeepsRegsBut [7] t ∧ s.KeepsMemory t ∧
      t.pc.toNat = s.pc.toNat + 2 ∧ t.fl = s.fl ∧ t.out = s.out ∧ s.KeepsControl t) ∧
    (a.toNat ≠ 7 → s.sp.toNat = 255 → Faults (exec (.pop a) s) s (.outOfBounds 256)) ∧
    (a.toNat = 7 → (s.byteAt s.sp.toNat).toNat = 255 →
      Faults (exec (.pop a) s) s (.outOfBounds 256))

/-- CALL (R172): the return address pc + 2 is stored at the decremented SP, then pc takes the target
register, read after the decrement (D17, log 19); at SP = 0 it faults (D14, log 18). -/
def Obligations.CallPushesTheReturnAddress : Prop :=
  ∀ (a : Byte) (s : State) (ha : a.toNat < 8), s.pc.toNat ≤ 253 →
    (1 ≤ s.sp.toNat → ∃ t, exec (.call a) s = .next t ∧
      t.sp.toNat = s.sp.toNat - 1 ∧ s.KeepsRegsBut [7] t ∧
      (t.byteAt (s.sp.toNat - 1)).toNat = s.pc.toNat + 2 ∧ s.KeepsMemoryBut (s.sp.toNat - 1) t ∧
      t.pc = (if a.toNat = 7 then t.sp else s.reg ⟨a.toNat, ha⟩) ∧ t.fl = s.fl ∧ t.out = s.out ∧
      s.KeepsControl t) ∧
    (s.sp.toNat = 0 → Faults (exec (.call a) s) s (.outOfBounds (-1)))

/-- RET (R173); at SP = 255 it faults (D14, log 18). -/
def Obligations.RetPopsTheReturnAddress : Prop :=
  ∀ s : State,
    (s.sp.toNat ≤ 254 → ∃ t, exec .ret s = .next t ∧
      t.pc = s.byteAt s.sp.toNat ∧ t.sp.toNat = s.sp.toNat + 1 ∧ s.KeepsRegsBut [7] t ∧
      s.KeepsMemory t ∧ t.fl = s.fl ∧ t.out = s.out ∧ s.KeepsControl t) ∧
    (s.sp.toNat = 255 → Faults (exec .ret s) s (.outOfBounds 256))

/-- JMP (R174): any byte is a target (R170). -/
def Obligations.JmpGoesToTheRegister : Prop :=
  ∀ (a : Byte) (s : State) (ha : a.toNat < 8),
    exec (.jmp a) s = .next { s with pc := s.reg ⟨a.toNat, ha⟩ }

/-- JEQ (R177): taken exactly when bit 0 of FL is 1. -/
def Obligations.JeqJumpsWhenEqual : Prop :=
  ∀ (a : Byte) (s : State) (ha : a.toNat < 8),
    (s.fl.getLsbD 0 = true → exec (.jeq a) s = .next { s with pc := s.reg ⟨a.toNat, ha⟩ }) ∧
    (s.fl.getLsbD 0 = false → s.pc.toNat ≤ 253 → ∃ t, exec (.jeq a) s = .next t ∧
      t.pc.toNat = s.pc.toNat + 2 ∧ s.KeepsRegsBut [] t ∧ t.fl = s.fl ∧ s.KeepsMemory t ∧
      t.out = s.out ∧ s.KeepsControl t)

/-- JNE (R178): taken exactly when bit 0 of FL is 0. -/
def Obligations.JneJumpsWhenNotEqual : Prop :=
  ∀ (a : Byte) (s : State) (ha : a.toNat < 8),
    (s.fl.getLsbD 0 = false → exec (.jne a) s = .next { s with pc := s.reg ⟨a.toNat, ha⟩ }) ∧
    (s.fl.getLsbD 0 = true → s.pc.toNat ≤ 253 → ∃ t, exec (.jne a) s = .next t ∧
      t.pc.toNat = s.pc.toNat + 2 ∧ s.KeepsRegsBut [] t ∧ t.fl = s.fl ∧ s.KeepsMemory t ∧
      t.out = s.out ∧ s.KeepsControl t)

/-! ## Frames over all 13 instructions: whatever the operands, pc and SP, faults included -/

/-- Table S1's "writes" column: every register outside it keeps its value. That a faulting instruction
writes none at all is D10 (log 16). -/
def Obligations.RegisterFrame : Prop :=
  ∀ (i : Instr) (s t : State) (q : RegIndex), exec i s = .next t → q.val ∉ writtenRegs i →
    t.reg q = s.reg q

/-- R54's writes: only PUSH and CALL store, and each stores one byte, at the decremented SP. The
address is computed by `spDec`, the operation both meanings use. That a faulting instruction stores
nothing is D10 (log 16). -/
def Obligations.MemoryFrame : Prop :=
  ∀ (i : Instr) (s t : State) (addr : Nat), exec i s = .next t →
    ((i.mnemonic = .PUSH ∨ i.mnemonic = .CALL) → ∀ s1, spDec s = .ok s1 → addr ≠ s1.sp.toNat) →
    t.byteAt addr = s.byteAt addr

/-- R54's reads and the fetch (R92, D7; log 15): a step looks at the three bytes at pc, pc + 1, pc + 2
and, for POP and RET, at the byte at SP, and at no other. Two Running states that agree on these bytes
and on everything but memory end with the same status, registers, FL, pc, fault and output; at the
address the step stores to (none when it faults: D10, log 16) both hold the same byte, and every other
byte of the second is what it was. -/
def Obligations.StepReadsFourBytesAtMost : Prop :=
  ∀ (s t : State) (m : Memory), s.status = .running → step s = .next t →
    (∀ k, k ≤ 2 → m.get (s.pc.toNat + k) = s.byteAt (s.pc.toNat + k)) →
    (∀ i, s.instrAtPc = .ok i → i.mnemonic = .POP ∨ i.mnemonic = .RET →
      m.get s.sp.toNat = s.byteAt s.sp.toNat) →
    ∃ u, step { s with mem := m } = .next u ∧ t.SameButMemory u ∧
      ∀ addr, (StoresAt s t addr → u.byteAt addr = t.byteAt addr) ∧
        (¬StoresAt s t addr → u.byteAt addr = m.get addr)

/-- R28: FL is written by CMP only, which replaces all of it (its old value has no influence); it is
read by JEQ and JNE only, which test bit 0. `f` is any other FL value. -/
def Obligations.FlagsAreCmpsAlone : Prop :=
  ∀ (i : Instr) (s t : State) (f : Byte), exec i s = .next t →
    (i.mnemonic ≠ .CMP → t.fl = s.fl) ∧
    (∀ a b : Byte, i = .cmp a b → a.toNat < 8 → b.toNat < 8 → s.pc.toNat ≤ 252 →
      exec i { s with fl := f } = .next t) ∧
    (i.mnemonic ≠ .CMP → i.mnemonic ≠ .JEQ → i.mnemonic ≠ .JNE →
      exec i { s with fl := f } = .next { t with fl := f }) ∧
    (i.mnemonic = .JEQ ∨ i.mnemonic = .JNE → f.getLsbD 0 = s.fl.getLsbD 0 →
      exec i { s with fl := f } = .next { t with fl := f })

/-- R36: `out` is the list of bytes emitted by PRN, oldest first, empty after reset; a step appends at
most one byte, only PRN appends, and the block never reads `out`: with any other log `o` before it the
step does the same and appends the same bytes. A PRN that faults appends nothing (D10; log 16). The host
renders each entry as one decimal line; that the line is the digits followed by `Config.outputLineEnd`,
a constant without a value, is the model's choice (R45, D26; log 22). -/
def Obligations.OutputIsOnlyAppended : Prop :=
  State.reset.out = [] ∧
  (∀ (i : Instr) (s t : State), exec i s = .next t →
    (i.mnemonic ≠ .PRN → t.out = s.out) ∧
    (i.mnemonic = .PRN → t.out = s.out ∨ ∃ v, t.out = s.out ++ [v])) ∧
  (∀ (s t : State) (o : List Byte), step { s with out := [] } = .next t →
    step { s with out := o } = .next { t with out := o ++ t.out }) ∧
  ∀ v : Byte, outputLine v = toString v.toNat ++ Config.outputLineEnd

/-- R102 (the spec's own inference from the instruction rules): where the next pc comes from, by the
class of the instruction, when it does not fault. CALL's register target is read after the decrement
(R172; the spec's decision D17, log 19), so it is the register's value in the new state. A conditional
jump is taken for JEQ when E = 1 and for JNE when E = 0. -/
def Obligations.NextPcFollowsItsClass : Prop :=
  ∀ (i : Instr) (s t : State), exec i s = .next t → s.status = .running → t.status ≠ .faulted →
    match i.mnemonic.nextPcClass with
    | .hold => t.pc = s.pc
    | .fallThrough => t.pc.toNat = s.pc.toNat + i.length
    | .register => ∃ r : RegIndex, registerBytes i = [BitVec.ofNat 8 r.val] ∧ t.pc = t.reg r
    | .conditional =>
      ((i.mnemonic = .JEQ ↔ s.fl.getLsbD 0 = true) →
        ∃ r : RegIndex, registerBytes i = [BitVec.ofNat 8 r.val] ∧ t.pc = s.reg r) ∧
      (¬(i.mnemonic = .JEQ ↔ s.fl.getLsbD 0 = true) → t.pc.toNat = s.pc.toNat + i.length)
    | .memory => t.pc = s.byteAt s.sp.toNat

/-! ## Faults and the machine states -/

/-- The transitions of R90 out of Running: an instruction keeps it Running, HLT makes it Halted (and
nothing else does), a fault makes it Faulted; the record is set on that transition alone (R34). That a
HLT at 254 or 255 faults instead is D7 (R92; log 15). -/
def Obligations.RunningLeavesByHaltOrFault : Prop :=
  ∀ s t : State, s.status = .running → s.fault = none → step s = .next t →
    (t.status = .running ∨ t.status = .halted ∨ t.status = .faulted) ∧
    (t.status = .halted ↔ s.pc.toNat ≤ 253 ∧ decode (s.byteAt s.pc.toNat)
      (s.byteAt (s.pc.toNat + 1)) (s.byteAt (s.pc.toNat + 2)) = .ok .hlt) ∧
    (t.status = .faulted ↔ t.fault ≠ none)

/-- Faults are precise (R97, R98, R195; the spec's decision D10, log 16): a step that ends in Faulted
changed only `status` and `fault`, and `fault_pc` is the pc it kept. -/
def Obligations.FaultsArePrecise : Prop :=
  ∀ s t : State, s.status = .running → step s = .next t → t.status = .faulted →
    ∃ f, t = { s with status := .faulted, fault := some ⟨f, s.pc⟩ }

/-- Table X2 is complete and in the order of R194: a step of a Running state faults exactly where the
table says, with the kind and information it says; otherwise it ends Running or Halted and the fault
record stays as it was, so it is none where none was recorded. The table's sites and order rest on D6,
D7, D12, D14 and D16 (log 14 to 18), the exactness of a faulting step on D10 (log 16). -/
def Obligations.FaultSitesAreTableX2 : Prop :=
  ∀ s : State, s.status = .running →
    match faultSite s with
    | some f => Faults (step s) s f
    | none => ∃ t, step s = .next t ∧ (t.status = .running ∨ t.status = .halted) ∧
      t.fault = s.fault ∧ (s.fault = none → t.fault = none)

/-- R65: memory keeps its contents across the transitions to Halted and Faulted; only reset and the
host's writes in Ready change memory other than the instructions of R54 that store. -/
def Obligations.MemorySurvivesTheEndOfARun : Prop :=
  (∀ s t : State, step s = .next t → t.ended → s.KeepsMemory t) ∧
  (∀ (s t : State) (addr : Nat), step s = .next t → t.byteAt addr ≠ s.byteAt addr →
    ∃ i, decode (s.byteAt s.pc.toNat) (s.byteAt (s.pc.toNat + 1)) (s.byteAt (s.pc.toNat + 2)) = .ok i
      ∧ (i.mnemonic = .PUSH ∨ i.mnemonic = .CALL)) ∧
  ∀ (s : State) (c : PortCmd) (addr : Nat), (port c s).2.byteAt addr ≠ s.byteAt addr →
    c = .reset ∨ (s.status = .ready ∧ ∃ k v, c = .writeMem k v)

/-- R171: the Equal test is bit 0 of FL, JEQ and JNE read no other bit, and the variant
`FL = FL & 0xFE` agrees with it for every value of FL (the rule marks that agreement as the spec's own
inference; C7). -/
def Obligations.EqualTestIsBitZero : Prop :=
  (∀ fl : Byte, equalFlag fl = fl.getLsbD 0 ∧ (fl = fl &&& 0xFE#8 ↔ equalFlag fl = false)) ∧
  ∀ (a : Byte) (s t : State) (f : Byte), f.getLsbD 0 = s.fl.getLsbD 0 →
    (exec (.jeq a) s = .next t → exec (.jeq a) { s with fl := f } = .next { t with fl := f }) ∧
    (exec (.jne a) s = .next t → exec (.jne a) { s with fl := f } = .next { t with fl := f })

/-- The trace port (R46, D24; log 22): a record exactly for a step whose fetch succeeds, with pc, the
three fetched bytes and the registers as they are before the instruction executes. That the fetch fails
at 254 and 255, so that there is no record, is R92 with decision D7 (log 15). -/
def Obligations.TraceRecordsTheFetch : Prop :=
  ∀ s : State,
    (s.status = .running → s.pc.toNat ≤ 253 → traceRecord s = some
      { pc := s.pc, op := s.byteAt s.pc.toNat, a := s.byteAt (s.pc.toNat + 1),
        b := s.byteAt (s.pc.toNat + 2), x := s.x }) ∧
    (254 ≤ s.pc.toNat → traceRecord s = none)

/-! ## Laws of the stack -/

/-- R155: PUSH followed immediately by POP into the same register is the identity on all registers,
R7 included, when SP ≥ 1; the pushed cell keeps the pushed value and pc has passed both. -/
def Obligations.PushThenPopIsTheIdentity : Prop :=
  ∀ (a : Byte) (s : State), a.toNat < 8 → 1 ≤ s.sp.toNat → s.pc.toNat ≤ 251 →
    ∃ t u, exec (.push a) s = .next t ∧ exec (.pop a) t = .next u ∧
      s.KeepsRegsBut [] u ∧ u.fl = s.fl ∧ u.out = s.out ∧ s.KeepsControl u ∧
      u.pc.toNat = s.pc.toNat + 4 ∧ s.KeepsMemoryBut (s.sp.toNat - 1) u ∧
      u.byteAt (s.sp.toNat - 1) = t.byteAt (s.sp.toNat - 1)

/-- R175: CALL followed by RET returns to the instruction after the CALL with the stack pointer
restored, when SP ≥ 1, the instruction at the target is a RET (as memory stands after the CALL) and
the target is at most 253. Stated of two steps. -/
def Obligations.CallThenRetReturns : Prop :=
  ∀ (s t : State) (a : Byte), s.status = .running → s.pc.toNat ≤ 253 → a.toNat < 8 →
    s.byteAt s.pc.toNat = 0x50#8 → s.byteAt (s.pc.toNat + 1) = a → 1 ≤ s.sp.toNat →
    step s = .next t → t.pc.toNat ≤ 253 → t.byteAt t.pc.toNat = 0x11#8 →
    ∃ u, step t = .next u ∧ u.pc.toNat = s.pc.toNat + 2 ∧ u.sp = s.sp ∧ s.KeepsRegsBut [] u ∧
      u.fl = s.fl ∧ s.KeepsControl u

/-! ## The invariant -/

/-- The reset state is sound: canonical memory (the model's own form, log 12), a legal FL, no fault
recorded. -/
def Obligations.ResetSatisfiesTheInvariant : Prop := State.reset.Inv

/-- Every step keeps the invariant: memory stays canonical (the model's own form, log 12), FL stays one
of its four values (R29), a fault is recorded exactly in Faulted with pc kept (R34, R98), and only
faults of Table X2 occur (R193). A step outside Running keeps the state (log 4). -/
def Obligations.StepKeepsTheInvariant : Prop :=
  ∀ s t : State, s.Inv → step s = .next t → t.Inv

/-- Every host transaction keeps the invariant (R42, R43; decisions D19, D20 and D21, log 8 and 21). -/
def Obligations.TransactionsKeepTheInvariant : Prop :=
  ∀ (s : State) (c : PortCmd), s.Inv → (port c s).2.Inv

/-- R29 and R34 of every state a host and the machine can bring about: FL is one of its four values
(the spec's own inference), FL after a CMP that did not fault is not 0x00, and the fault record is there
exactly in Faulted. Canonical memory is the model's own form (log 12). -/
def Obligations.ReachableStatesAreSound : Prop :=
  ∀ s : State, Reachable s →
    s.mem.wf ∧ (s.fl = 0x00#8 ∨ s.fl = 0x01#8 ∨ s.fl = 0x02#8 ∨ s.fl = 0x04#8) ∧
    (s.fault ≠ none ↔ s.status = .faulted) ∧
    ∀ (a b : Byte) (t : State), exec (.cmp a b) s = .next t → t.fault = none →
      t.fl = 0x01#8 ∨ t.fl = 0x02#8 ∨ t.fl = 0x04#8
end

