-- ==== Sys2Proof/Laws/State.lean ====
section
/-! SUPPORT. One lemma per field of State per update, and the register and memory reads after each
update, so that no proof unfolds a record update. -/

namespace Sys2Proof.Machine

variable (s : State)

/-! ### setReg -/

@[simp] theorem State.setReg_x (r : RegIndex) (v : Byte) : (s.setReg r v).x = s.x.set r.val v := rfl
@[simp] theorem State.setReg_fl (r : RegIndex) (v : Byte) : (s.setReg r v).fl = s.fl := rfl
@[simp] theorem State.setReg_pc (r : RegIndex) (v : Byte) : (s.setReg r v).pc = s.pc := rfl
@[simp] theorem State.setReg_status (r : RegIndex) (v : Byte) : (s.setReg r v).status = s.status := rfl
@[simp] theorem State.setReg_fault (r : RegIndex) (v : Byte) : (s.setReg r v).fault = s.fault := rfl
@[simp] theorem State.setReg_mem (r : RegIndex) (v : Byte) : (s.setReg r v).mem = s.mem := rfl
@[simp] theorem State.setReg_out (r : RegIndex) (v : Byte) : (s.setReg r v).out = s.out := rfl

/-! ### setSp -/

@[simp] theorem State.setSp_x (v : Byte) : (s.setSp v).x = s.x.set Config.spIndex.val v := rfl
@[simp] theorem State.setSp_fl (v : Byte) : (s.setSp v).fl = s.fl := rfl
@[simp] theorem State.setSp_pc (v : Byte) : (s.setSp v).pc = s.pc := rfl
@[simp] theorem State.setSp_status (v : Byte) : (s.setSp v).status = s.status := rfl
@[simp] theorem State.setSp_fault (v : Byte) : (s.setSp v).fault = s.fault := rfl
@[simp] theorem State.setSp_mem (v : Byte) : (s.setSp v).mem = s.mem := rfl
@[simp] theorem State.setSp_out (v : Byte) : (s.setSp v).out = s.out := rfl

/-! ### setFl -/

@[simp] theorem State.setFl_x (v : Byte) : (s.setFl v).x = s.x := rfl
@[simp] theorem State.setFl_fl (v : Byte) : (s.setFl v).fl = v := rfl
@[simp] theorem State.setFl_pc (v : Byte) : (s.setFl v).pc = s.pc := rfl
@[simp] theorem State.setFl_status (v : Byte) : (s.setFl v).status = s.status := rfl
@[simp] theorem State.setFl_fault (v : Byte) : (s.setFl v).fault = s.fault := rfl
@[simp] theorem State.setFl_mem (v : Byte) : (s.setFl v).mem = s.mem := rfl
@[simp] theorem State.setFl_out (v : Byte) : (s.setFl v).out = s.out := rfl

/-! ### setPc -/

@[simp] theorem State.setPc_x (v : Byte) : (s.setPc v).x = s.x := rfl
@[simp] theorem State.setPc_fl (v : Byte) : (s.setPc v).fl = s.fl := rfl
@[simp] theorem State.setPc_pc (v : Byte) : (s.setPc v).pc = v := rfl
@[simp] theorem State.setPc_status (v : Byte) : (s.setPc v).status = s.status := rfl
@[simp] theorem State.setPc_fault (v : Byte) : (s.setPc v).fault = s.fault := rfl
@[simp] theorem State.setPc_mem (v : Byte) : (s.setPc v).mem = s.mem := rfl
@[simp] theorem State.setPc_out (v : Byte) : (s.setPc v).out = s.out := rfl

/-! ### setStatus -/

@[simp] theorem State.setStatus_x (st : Status) : (s.setStatus st).x = s.x := rfl
@[simp] theorem State.setStatus_fl (st : Status) : (s.setStatus st).fl = s.fl := rfl
@[simp] theorem State.setStatus_pc (st : Status) : (s.setStatus st).pc = s.pc := rfl
@[simp] theorem State.setStatus_status (st : Status) : (s.setStatus st).status = st := rfl
@[simp] theorem State.setStatus_fault (st : Status) : (s.setStatus st).fault = s.fault := rfl
@[simp] theorem State.setStatus_mem (st : Status) : (s.setStatus st).mem = s.mem := rfl
@[simp] theorem State.setStatus_out (st : Status) : (s.setStatus st).out = s.out := rfl

/-! ### setByte -/

@[simp] theorem State.setByte_x (a : Nat) (v : Byte) : (s.setByte a v).x = s.x := rfl
@[simp] theorem State.setByte_fl (a : Nat) (v : Byte) : (s.setByte a v).fl = s.fl := rfl
@[simp] theorem State.setByte_pc (a : Nat) (v : Byte) : (s.setByte a v).pc = s.pc := rfl
@[simp] theorem State.setByte_status (a : Nat) (v : Byte) : (s.setByte a v).status = s.status := rfl
@[simp] theorem State.setByte_fault (a : Nat) (v : Byte) : (s.setByte a v).fault = s.fault := rfl
@[simp] theorem State.setByte_mem (a : Nat) (v : Byte) : (s.setByte a v).mem = s.mem.set a v := rfl
@[simp] theorem State.setByte_out (a : Nat) (v : Byte) : (s.setByte a v).out = s.out := rfl

/-! ### emit -/

@[simp] theorem State.emit_x (v : Byte) : (s.emit v).x = s.x := rfl
@[simp] theorem State.emit_fl (v : Byte) : (s.emit v).fl = s.fl := rfl
@[simp] theorem State.emit_pc (v : Byte) : (s.emit v).pc = s.pc := rfl
@[simp] theorem State.emit_status (v : Byte) : (s.emit v).status = s.status := rfl
@[simp] theorem State.emit_fault (v : Byte) : (s.emit v).fault = s.fault := rfl
@[simp] theorem State.emit_mem (v : Byte) : (s.emit v).mem = s.mem := rfl
@[simp] theorem State.emit_out (v : Byte) : (s.emit v).out = s.out ++ [v] := rfl

/-! ### enterFault -/

@[simp] theorem State.enterFault_x (f : Fault) : (s.enterFault f).x = s.x := rfl
@[simp] theorem State.enterFault_fl (f : Fault) : (s.enterFault f).fl = s.fl := rfl
@[simp] theorem State.enterFault_pc (f : Fault) : (s.enterFault f).pc = s.pc := rfl
@[simp] theorem State.enterFault_status (f : Fault) : (s.enterFault f).status = .faulted := rfl
@[simp] theorem State.enterFault_fault (f : Fault) : (s.enterFault f).fault = some ⟨f, s.pc⟩ := rfl
@[simp] theorem State.enterFault_mem (f : Fault) : (s.enterFault f).mem = s.mem := rfl
@[simp] theorem State.enterFault_out (f : Fault) : (s.enterFault f).out = s.out := rfl

/-! ### Register reads -/

@[simp] theorem State.reg_setReg_self (r : RegIndex) (v : Byte) : (s.setReg r v).reg r = v := by
  simp [State.reg, State.setReg]

@[simp] theorem State.reg_setReg_ne {q r : RegIndex} (v : Byte) (h : q ≠ r) :
    (s.setReg r v).reg q = s.reg q := by
  have hv : r.val ≠ q.val := fun e => h (Fin.ext e.symm)
  simp [State.reg, State.setReg, Vector.getElem_set_ne _ _ hv]

theorem State.reg_setReg (r q : RegIndex) (v : Byte) :
    (s.setReg r v).reg q = if q = r then v else s.reg q := by
  split
  · rename_i h; rw [h, State.reg_setReg_self]
  · rename_i h; rw [State.reg_setReg_ne s v h]

theorem State.setSp_eq (v : Byte) : s.setSp v = s.setReg Config.spIndex v := rfl

theorem State.sp_eq : s.sp = s.reg Config.spIndex := rfl

@[simp] theorem State.reg_setSp_self (v : Byte) : (s.setSp v).reg Config.spIndex = v := by
  simp [State.setSp_eq]

@[simp] theorem State.reg_setSp_ne {q : RegIndex} (v : Byte) (h : q ≠ Config.spIndex) :
    (s.setSp v).reg q = s.reg q := by
  simp [State.setSp_eq, h]

theorem State.reg_setSp (q : RegIndex) (v : Byte) :
    (s.setSp v).reg q = if q = Config.spIndex then v else s.reg q := s.reg_setReg _ _ _

@[simp] theorem State.sp_setSp (v : Byte) : (s.setSp v).sp = v := s.reg_setSp_self v

theorem State.sp_setReg (r : RegIndex) (v : Byte) :
    (s.setReg r v).sp = if Config.spIndex = r then v else s.sp := s.reg_setReg _ _ _

@[simp] theorem State.reg_setFl (v : Byte) (q : RegIndex) : (s.setFl v).reg q = s.reg q := rfl

@[simp] theorem State.sp_setFl (v : Byte) : (s.setFl v).sp = s.sp := rfl

@[simp] theorem State.reg_setPc (v : Byte) (q : RegIndex) : (s.setPc v).reg q = s.reg q := rfl

@[simp] theorem State.sp_setPc (v : Byte) : (s.setPc v).sp = s.sp := rfl

@[simp] theorem State.reg_setStatus (st : Status) (q : RegIndex) : (s.setStatus st).reg q = s.reg q := rfl

@[simp] theorem State.sp_setStatus (st : Status) : (s.setStatus st).sp = s.sp := rfl

@[simp] theorem State.reg_setByte (a : Nat) (v : Byte) (q : RegIndex) : (s.setByte a v).reg q = s.reg q := rfl

@[simp] theorem State.sp_setByte (a : Nat) (v : Byte) : (s.setByte a v).sp = s.sp := rfl

@[simp] theorem State.reg_emit (v : Byte) (q : RegIndex) : (s.emit v).reg q = s.reg q := rfl

@[simp] theorem State.sp_emit (v : Byte) : (s.emit v).sp = s.sp := rfl

@[simp] theorem State.reg_enterFault (f : Fault) (q : RegIndex) : (s.enterFault f).reg q = s.reg q := rfl

@[simp] theorem State.sp_enterFault (f : Fault) : (s.enterFault f).sp = s.sp := rfl

/-! ### Another memory -/

@[simp] theorem State.reg_withMem (m : Memory) (q : RegIndex) :
    ({ s with mem := m } : State).reg q = s.reg q := rfl

@[simp] theorem State.sp_withMem (m : Memory) : ({ s with mem := m } : State).sp = s.sp := rfl

@[simp] theorem State.byteAt_withMem (m : Memory) (addr : Nat) :
    ({ s with mem := m } : State).byteAt addr = m.get addr := rfl

/-! ### Memory reads -/

@[simp] theorem State.byteAt_setReg (r : RegIndex) (v : Byte) (addr : Nat) : (s.setReg r v).byteAt addr = s.byteAt addr := rfl

@[simp] theorem State.byteAt_setSp (v : Byte) (addr : Nat) : (s.setSp v).byteAt addr = s.byteAt addr := rfl

@[simp] theorem State.byteAt_setFl (v : Byte) (addr : Nat) : (s.setFl v).byteAt addr = s.byteAt addr := rfl

@[simp] theorem State.byteAt_setPc (v : Byte) (addr : Nat) : (s.setPc v).byteAt addr = s.byteAt addr := rfl

@[simp] theorem State.byteAt_setStatus (st : Status) (addr : Nat) : (s.setStatus st).byteAt addr = s.byteAt addr := rfl

@[simp] theorem State.byteAt_emit (v : Byte) (addr : Nat) : (s.emit v).byteAt addr = s.byteAt addr := rfl

@[simp] theorem State.byteAt_enterFault (f : Fault) (addr : Nat) :
    (s.enterFault f).byteAt addr = s.byteAt addr := rfl

end Sys2Proof.Machine
end

