-- ==== Sys2Proof/Laws/Memory.lean ====
section
/-! SUPPORT. The memory list: a read after a write (R51, R52), and that a write keeps the canonical
form. -/

namespace Sys2Proof.Machine

theorem Memory.get_erase (m : Memory) (a b : Nat) :
    (m.erase a).get b = if b = a then Memory.unlisted else m.get b := by
  induction m with
  | nil => simp [Memory.erase, Memory.get]
  | cons c rest ih =>
    obtain ⟨k, v⟩ := c
    simp only [Memory.erase, Memory.get]
    by_cases hka : k = a
    · simp only [hka, if_true, ih]
      by_cases hb : b = a
      · simp [hb]
      · simp [hb, Ne.symm hb]
    · simp only [if_neg hka, Memory.get, ih]
      by_cases hkb : k = b
      · simp [hkb, show b ≠ a from hkb ▸ hka]
      · simp [hkb]

theorem Memory.get_insert (m : Memory) (a b : Nat) (v : Byte) (h : ∀ c ∈ m, c.1 ≠ a) :
    (m.insert a v).get b = if b = a then v else m.get b := by
  induction m with
  | nil =>
    simp only [Memory.insert, Memory.get]
    by_cases hb : b = a
    · simp [hb]
    · simp [hb, Ne.symm hb]
  | cons c rest ih =>
    obtain ⟨k, w⟩ := c
    have hk : k ≠ a := h (k, w) (by simp)
    have hr := ih fun c hc => h c (List.mem_cons_of_mem _ hc)
    simp only [Memory.insert]
    split
    · simp only [Memory.get]
      by_cases hb : b = a
      · simp [hb]
      · simp [hb, Ne.symm hb]
    · simp only [Memory.get, hr]
      by_cases hkb : k = b
      · simp [hkb, show b ≠ a from hkb ▸ hk]
      · simp [hkb]

theorem Memory.mem_erase {m : Memory} {a : Nat} {c : Host.Cell} :
    c ∈ m.erase a ↔ c ∈ m ∧ c.1 ≠ a := by
  induction m with
  | nil => simp [Memory.erase]
  | cons d rest ih =>
    obtain ⟨k, v⟩ := d
    simp only [Memory.erase]
    split
    · rename_i hk
      rw [ih, List.mem_cons]
      exact ⟨fun ⟨h, hn⟩ => ⟨.inr h, hn⟩, fun ⟨h, hn⟩ =>
        ⟨h.resolve_left fun e => hn (by rw [e]; exact hk), hn⟩⟩
    · rename_i hk
      rw [List.mem_cons, List.mem_cons, ih]
      constructor
      · rintro (rfl | ⟨h, hn⟩)
        · exact ⟨.inl rfl, hk⟩
        · exact ⟨.inr h, hn⟩
      · rintro ⟨rfl | h, hn⟩
        · exact .inl rfl
        · exact .inr ⟨h, hn⟩

theorem Memory.mem_insert {m : Memory} {a : Nat} {v : Byte} {c : Host.Cell} :
    c ∈ m.insert a v ↔ c = (a, v) ∨ c ∈ m := by
  induction m with
  | nil => simp [Memory.insert]
  | cons d rest ih =>
    obtain ⟨k, w⟩ := d
    simp only [Memory.insert]
    split
    · simp
    · simp only [List.mem_cons, ih]; tauto

/-- Reading after a write: the written byte at its address, every other byte as before. -/
theorem Memory.get_set (m : Memory) (a b : Nat) (v : Byte) :
    (m.set a v).get b = if b = a then v else m.get b := by
  unfold Memory.set
  split
  · rename_i hv; rw [Memory.get_erase, hv]
  · rw [Memory.get_insert _ _ _ _ fun c hc => (Memory.mem_erase.1 hc).2, Memory.get_erase]
    split <;> rfl

@[simp] theorem State.byteAt_setByte (s : State) (a b : Nat) (v : Byte) :
    (s.setByte a v).byteAt b = if b = a then v else s.byteAt b :=
  s.mem.get_set a b v

theorem Memory.erase_sublist (m : Memory) (a : Nat) : (m.erase a).Sublist m := by
  induction m with
  | nil => exact .slnil
  | cons d rest ih =>
    obtain ⟨k, v⟩ := d
    simp only [Memory.erase]
    split
    · exact ih.cons _
    · exact ih.cons_cons _

theorem Memory.insert_rising {m : Memory} {a : Nat} {v : Byte}
    (hm : m.Pairwise fun p q => p.1 < q.1) (ha : ∀ c ∈ m, c.1 ≠ a) :
    (m.insert a v).Pairwise fun p q => p.1 < q.1 := by
  induction m with
  | nil => simp [Memory.insert]
  | cons d rest ih =>
    obtain ⟨k, w⟩ := d
    obtain ⟨hk, hrest⟩ := List.pairwise_cons.1 hm
    have hka : k ≠ a := ha (k, w) (by simp)
    simp only [Memory.insert]
    split
    · rename_i hlt
      refine List.pairwise_cons.2 ⟨fun c hc => ?_, hm⟩
      rcases List.mem_cons.1 hc with rfl | hc
      · exact hlt
      · exact hlt.trans (hk c hc)
    · rename_i hge
      refine List.pairwise_cons.2 ⟨fun c hc => ?_, ih hrest fun c hc => ha c (by simp [hc])⟩
      rcases Memory.mem_insert.1 hc with rfl | hc
      · show k < a; omega
      · exact hk c hc

/-- Every write to a valid address keeps the canonical form. -/
theorem Memory.set_wf {m : Memory} (h : m.wf) {a : Nat} (ha : a < 256) (v : Byte) :
    (m.set a v).wf := by
  have he : (m.erase a).Pairwise fun p q => p.1 < q.1 := h.1.sublist (m.erase_sublist a)
  unfold Memory.set
  split
  · exact ⟨he, fun c hc => h.2 c (Memory.mem_erase.1 hc).1⟩
  · rename_i hv
    refine ⟨Memory.insert_rising he fun c hc => (Memory.mem_erase.1 hc).2, fun c hc => ?_⟩
    rcases Memory.mem_insert.1 hc with rfl | hc
    · exact ⟨hv, ha⟩
    · exact h.2 c (Memory.mem_erase.1 hc).1

/-- Reset memory lists nothing, so it is in canonical form. -/
theorem Memory.reset_wf : State.reset.mem.wf := by decide

/-- In a canonical memory an address outside 0 to 255 is never listed. -/
theorem Memory.get_outside {m : Memory} (h : m.wf) {a : Nat} (ha : 256 ≤ a) :
    m.get a = Memory.unlisted := by
  have key : ∀ l : Memory, (∀ c ∈ l, c.1 < 256) → l.get a = Memory.unlisted := by
    intro l
    induction l with
    | nil => intro _; rfl
    | cons d rest ih =>
      intro hl
      have hd : d.1 ≠ a := by have := hl d (by simp); omega
      simp only [Memory.get, if_neg hd]
      exact ih fun c hc => hl c (by simp [hc])
  exact key m fun c hc => (h.2 c hc).2

/-- Two canonical memories that read alike are the same list: equal memories are equal data. -/
theorem Memory.ext_of_wf {m n : Memory} (hm : m.wf) (hn : n.wf) (h : ∀ a, m.get a = n.get a) :
    m = n := by
  have listed : ∀ {l : Memory}, l.Pairwise (fun p q => p.1 < q.1) → ∀ {c}, c ∈ l →
      l.get c.1 = c.2 := by
    intro l
    induction l with
    | nil => intro _ c hc; simp at hc
    | cons d rest ih =>
      intro hl c hc
      obtain ⟨hd, hrest⟩ := List.pairwise_cons.1 hl
      rcases List.mem_cons.1 hc with rfl | hc
      · simp [Memory.get]
      · have : d.1 ≠ c.1 := by have := hd c hc; omega
        simp only [Memory.get, if_neg this]
        exact ih hrest hc
  have unlist : ∀ {l : Memory} {a : Nat}, l.get a ≠ Memory.unlisted → (a, l.get a) ∈ l := by
    intro l a
    induction l with
    | nil => intro hne; exact absurd rfl hne
    | cons d rest ih =>
      obtain ⟨k, v⟩ := d
      intro hne
      simp only [Memory.get] at hne ⊢
      split
      · rename_i hk; simp [hk]
      · rename_i hk
        rw [if_neg hk] at hne
        exact List.mem_cons_of_mem _ (ih hne)
  have sub : ∀ {l k : Memory}, l.wf → (∀ a, l.get a = k.get a) → ∀ c ∈ l, c ∈ k := by
    intro l k hl he c hc
    have hg := listed hl.1 hc
    have hne : k.get c.1 ≠ Memory.unlisted := by rw [← he, hg]; exact (hl.2 c hc).1
    have := unlist hne
    rwa [← he, hg] at this
  have hp : m.Perm n := (List.perm_ext_iff_of_nodup
    (hm.1.imp fun h e => by rw [e] at h; omega) (hn.1.imp fun h e => by rw [e] at h; omega)).2
    fun c => ⟨sub hm h c, sub hn (fun a => (h a).symm) c⟩
  exact hp.eq_of_pairwise (fun a b _ _ h1 h2 => by omega) hm.1 hn.1

end Sys2Proof.Machine
end

