-- ==== Sys2Proof/Laws/Ops.lean ====
section
/-! SUPPORT. One lemma for each shared operation, saying once everything it can do; the proofs about
instructions cite these and never unfold the operations. -/

namespace Sys2Proof.Machine

/-! ### The end of a step -/

@[simp] theorem complete_ok (s t : State) : complete s (.ok t) = .next t := rfl

@[simp] theorem complete_error (s : State) (f : Fault) :
    complete s (.error f) = .next (s.enterFault f) := rfl

/-- A step's end is always a next state: what the body gave, or the fault entry at the start. -/
theorem complete_cases (s : State) (r : Except Fault State) :
    (∃ t, r = .ok t ∧ complete s r = .next t) ∨
      ∃ f, r = .error f ∧ complete s r = .next (s.enterFault f) := by
  cases r with
  | ok t => exact .inl ⟨t, rfl, rfl⟩
  | error f => exact .inr ⟨f, rfl, rfl⟩

theorem complete_next {s t : State} {r : Except Fault State} (h : complete s r = .next t) :
    r = .ok t ∨ ∃ f, r = .error f ∧ t = s.enterFault f := by
  cases r with
  | ok u => left; cases h; rfl
  | error f => right; cases h; exact ⟨f, rfl, rfl⟩

/-- From a sequence of primitives that succeeded, the value in between. -/
theorem bind_ok {α β : Type} {x : Except Fault α} {f : α → Except Fault β} {b : β} :
    (x >>= f) = .ok b ↔ ∃ a, x = .ok a ∧ f a = .ok b := by
  cases x with
  | ok a => exact ⟨fun h => ⟨a, rfl, h⟩, fun ⟨_, h, g⟩ => by cases h; exact g⟩
  | error e => exact ⟨(nomatch ·), fun ⟨_, h, _⟩ => nomatch h⟩

/-- From a sequence of primitives that raised a fault, which of the two raised it. -/
theorem bind_error {α β : Type} {x : Except Fault α} {f : α → Except Fault β} {e : Fault} :
    (x >>= f) = .error e ↔ x = .error e ∨ ∃ a, x = .ok a ∧ f a = .error e := by
  cases x with
  | ok a =>
    exact ⟨fun h => .inr ⟨a, rfl, h⟩, fun h => h.elim (fun h => by cases h)
      fun ⟨_, h, g⟩ => by cases h; exact g⟩
  | error e' =>
    exact ⟨fun h => .inl (by cases h; rfl), fun h => h.elim (fun h => by cases h; rfl)
      fun ⟨_, h, _⟩ => nomatch h⟩

@[simp] theorem ok_bind {α β : Type} (a : α) (f : α → Except Fault β) :
    ((Except.ok a : Except Fault α) >>= f) = f a := rfl

@[simp] theorem error_bind {α β : Type} (e : Fault) (f : α → Except Fault β) :
    ((Except.error e : Except Fault α) >>= f) = .error e := rfl

@[simp] theorem pure_eq_ok {α : Type} (a : α) : (pure a : Except Fault α) = .ok a := rfl

/-! ### Register operands -/

theorem checkReg_ok {a : Byte} (h : a.toNat < 8) : checkReg a = .ok ⟨a.toNat, h⟩ := dif_pos h

theorem checkReg_error {a : Byte} (h : 8 ≤ a.toNat) : checkReg a = .error (.invalidRegister a) :=
  dif_neg (by omega)

theorem checkReg_eq_ok {a : Byte} {r : RegIndex} : checkReg a = .ok r ↔ a.toNat = r.val := by
  unfold checkReg
  split
  · simp [Fin.ext_iff]
  · simp only [reduceCtorEq, false_iff]; have := r.isLt; omega

theorem checkReg_eq_error {a : Byte} {f : Fault} :
    checkReg a = .error f ↔ 8 ≤ a.toNat ∧ f = .invalidRegister a := by
  unfold checkReg
  split
  · simp only [reduceCtorEq, false_iff]; omega
  · simp only [Except.error.injEq]
    exact ⟨fun h => ⟨by omega, h.symm⟩, fun h => h.2.symm⟩

theorem checkRegs_ok {a b : Byte} (ha : a.toNat < 8) (hb : b.toNat < 8) :
    checkRegs a b = .ok (⟨a.toNat, ha⟩, ⟨b.toNat, hb⟩) := by
  simp [checkRegs, checkReg_ok ha, checkReg_ok hb]

theorem checkRegs_eq_ok {a b : Byte} {p : RegIndex × RegIndex} :
    checkRegs a b = .ok p ↔ a.toNat = p.1.val ∧ b.toNat = p.2.val := by
  obtain ⟨ra, rb⟩ := p
  simp only [checkRegs, bind_ok, pure_eq_ok, Except.ok.injEq, Prod.mk.injEq, checkReg_eq_ok]
  constructor
  · rintro ⟨x, hx, y, hy, rfl, rfl⟩; exact ⟨hx, hy⟩
  · rintro ⟨hx, hy⟩; exact ⟨ra, hx, rb, hy, rfl, rfl⟩

theorem checkRegs_eq_error {a b : Byte} {f : Fault} :
    checkRegs a b = .error f ↔ (8 ≤ a.toNat ∧ f = .invalidRegister a) ∨
      (a.toNat < 8 ∧ 8 ≤ b.toNat ∧ f = .invalidRegister b) := by
  simp only [checkRegs, bind_error, checkReg_eq_error, checkReg_eq_ok, pure_eq_ok, reduceCtorEq,
    and_false, exists_false, or_false]
  refine or_congr_right ⟨fun ⟨r, hr, h⟩ => ⟨hr ▸ r.isLt, h⟩, fun ⟨h, hb⟩ => ⟨⟨_, h⟩, rfl, hb⟩⟩

/-! ### Memory accesses -/

theorem validAddr_iff (addr : Int) : validAddr addr = true ↔ 0 ≤ addr ∧ addr < 256 := by
  cases addr with
  | ofNat n => show decide (n < 256) = true ↔ 0 ≤ (n : Int) ∧ (n : Int) < 256; simp
  | negSucc n => simp only [validAddr, Bool.false_eq_true, false_iff]; omega

theorem memRead_valid {addr : Int} (s : State) (h0 : 0 ≤ addr) (h1 : addr < 256) :
    memRead addr s = .ok (s.byteAt addr.toNat) :=
  if_pos ((validAddr_iff addr).2 ⟨h0, h1⟩)

theorem memRead_invalid {addr : Int} (s : State) (h : addr < 0 ∨ 256 ≤ addr) :
    memRead addr s = .error (.outOfBounds addr) :=
  if_neg fun hv => by have := (validAddr_iff addr).1 hv; omega

theorem memWrite_valid {addr : Int} (v : Byte) (s : State) (h0 : 0 ≤ addr) (h1 : addr < 256) :
    memWrite addr v s = .ok (s.setByte addr.toNat v) :=
  if_pos ((validAddr_iff addr).2 ⟨h0, h1⟩)

theorem memWrite_invalid {addr : Int} (v : Byte) (s : State) (h : addr < 0 ∨ 256 ≤ addr) :
    memWrite addr v s = .error (.outOfBounds addr) :=
  if_neg fun hv => by have := (validAddr_iff addr).1 hv; omega

/-- A read at a byte's value never faults: every byte is a valid address. -/
@[simp] theorem memRead_byte (v : Byte) (s : State) :
    memRead (v.toNat : Int) s = .ok (s.byteAt v.toNat) := by
  rw [memRead_valid s (by omega) (by have := v.isLt; omega)]; simp

/-- A write at a byte's value never faults. -/
@[simp] theorem memWrite_byte (v w : Byte) (s : State) :
    memWrite (v.toNat : Int) w s = .ok (s.setByte v.toNat w) := by
  rw [memWrite_valid w s (by omega) (by have := v.isLt; omega)]; simp

/-! ### The program counter -/

theorem nextPC_ok {n : Nat} {s : State} (h : s.pc.toNat + n < 256) :
    nextPC n s = .ok (BitVec.ofNat 8 (s.pc.toNat + n)) := by
  have : ¬ s.pc.toNat + n ≥ Config.memSize := by simp; omega
  rw [nextPC, if_neg this]

theorem nextPC_error {n : Nat} {s : State} (h : 256 ≤ s.pc.toNat + n) :
    nextPC n s = .error (.outOfBounds ((s.pc.toNat + n : Nat) : Int)) := by
  have : s.pc.toNat + n ≥ Config.memSize := by simpa using h
  rw [nextPC, if_pos this]

theorem advance_ok {n : Nat} {s : State} (h : s.pc.toNat + n < 256) :
    advance n s = .ok (s.setPc (BitVec.ofNat 8 (s.pc.toNat + n))) := by
  simp [advance, nextPC_ok h]

theorem advance_error {n : Nat} {s : State} (h : 256 ≤ s.pc.toNat + n) :
    advance n s = .error (.outOfBounds ((s.pc.toNat + n : Nat) : Int)) := by
  simp [advance, nextPC_error h]

/-- Everything `advance` can do. -/
theorem advance_cases (n : Nat) (s : State) :
    (s.pc.toNat + n < 256 ∧ advance n s = .ok (s.setPc (BitVec.ofNat 8 (s.pc.toNat + n)))) ∨
      (256 ≤ s.pc.toNat + n ∧ advance n s = .error (.outOfBounds ((s.pc.toNat + n : Nat) : Int))) := by
  by_cases h : s.pc.toNat + n < 256
  · exact .inl ⟨h, advance_ok h⟩
  · exact .inr ⟨by omega, advance_error (by omega)⟩

/-- The value of a fall-through address, as a number. -/
theorem toNat_ofNat_add {p : Byte} {n : Nat} (h : p.toNat + n < 256) :
    (BitVec.ofNat 8 (p.toNat + n)).toNat = p.toNat + n := by
  rw [BitVec.toNat_ofNat]; exact Nat.mod_eq_of_lt h

/-! ### The stack pointer -/

theorem spDec_ok {s : State} (h : 1 ≤ s.sp.toNat) :
    spDec s = .ok (s.setSp (BitVec.ofNat 8 (s.sp.toNat - 1))) := if_neg (by omega)

theorem spDec_error {s : State} (h : s.sp.toNat = 0) : spDec s = .error (.outOfBounds (-1)) :=
  if_pos (by omega)

theorem spInc_ok {s : State} (h : s.sp.toNat ≤ 254) :
    spInc s = .ok (s.setSp (BitVec.ofNat 8 (s.sp.toNat + 1))) := if_neg (by simp; omega)

theorem spInc_error {s : State} (h : s.sp.toNat = 255) : spInc s = .error (.outOfBounds 256) := by
  simp [spInc, h]

/-- Everything `spDec` can do. -/
theorem spDec_cases (s : State) :
    (1 ≤ s.sp.toNat ∧ spDec s = .ok (s.setSp (BitVec.ofNat 8 (s.sp.toNat - 1)))) ∨
      (s.sp.toNat = 0 ∧ spDec s = .error (.outOfBounds (-1))) := by
  by_cases h : 1 ≤ s.sp.toNat
  · exact .inl ⟨h, spDec_ok h⟩
  · exact .inr ⟨by omega, spDec_error (by omega)⟩

/-- Everything `spInc` can do. -/
theorem spInc_cases (s : State) :
    (s.sp.toNat ≤ 254 ∧ spInc s = .ok (s.setSp (BitVec.ofNat 8 (s.sp.toNat + 1)))) ∨
      (s.sp.toNat = 255 ∧ spInc s = .error (.outOfBounds 256)) := by
  have := s.sp.isLt
  by_cases h : s.sp.toNat ≤ 254
  · exact .inl ⟨h, spInc_ok h⟩
  · exact .inr ⟨by omega, spInc_error (by omega)⟩

/-! ### Fetch and step -/

/-- At 253 and below the three bytes are fetched. -/
theorem fetch_ok {s : State} (h : s.pc.toNat ≤ 253) :
    fetch s = .ok ⟨s.byteAt s.pc.toNat, s.byteAt (s.pc.toNat + 1), s.byteAt (s.pc.toNat + 2)⟩ := by
  have h1 := memRead_valid (addr := (s.pc.toNat : Int) + 1) s (by omega) (by omega)
  have h2 := memRead_valid (addr := (s.pc.toNat : Int) + 2) s (by omega) (by omega)
  have e1 : ((s.pc.toNat : Int) + 1).toNat = s.pc.toNat + 1 := by omega
  have e2 : ((s.pc.toNat : Int) + 2).toNat = s.pc.toNat + 2 := by omega
  simp [fetch, h1, h2, e1, e2]

/-- At 254 and 255 the fetch raises OutOfBounds(256). -/
theorem fetch_error {s : State} (h : 254 ≤ s.pc.toNat) : fetch s = .error (.outOfBounds 256) := by
  have hlt := s.pc.isLt
  have h256 := memRead_invalid (addr := 256) s (.inr (by omega))
  by_cases h5 : s.pc.toNat = 255
  · have e : (s.pc.toNat : Int) + 1 = 256 := by omega
    simp [fetch, e, h256]
  · have e : (s.pc.toNat : Int) + 2 = 256 := by omega
    have h1 := memRead_valid (addr := (s.pc.toNat : Int) + 1) s (by omega) (by omega)
    simp [fetch, e, h1, h256]

/-- Outside Running a step changes nothing. -/
theorem step_idle {s : State} (h : s.status ≠ .running) : step s = .next s := by
  unfold step idle
  cases hs : s.status <;> simp_all

theorem step_running {s : State} (h : s.status = .running) : step s = cycle s := by
  simp only [step, h]

theorem cycle_fetchFault {s : State} (h : 254 ≤ s.pc.toNat) :
    cycle s = .next (s.enterFault (.outOfBounds 256)) := by
  simp [cycle, fetchDecode, fetch_error h]

theorem cycle_noOpcode {s : State} (h : s.pc.toNat ≤ 253)
    (hd : opcodeRow (s.byteAt s.pc.toNat) = none) :
    cycle s = .next (s.enterFault (.invalidOpcode (s.byteAt s.pc.toNat))) := by
  simp [cycle, fetchDecode, fetch_ok h, decodeFetched, decode, hd]

theorem cycle_decoded {s : State} {i : Instr} (h : s.pc.toNat ≤ 253)
    (hd : decode (s.byteAt s.pc.toNat) (s.byteAt (s.pc.toNat + 1)) (s.byteAt (s.pc.toNat + 2))
      = .ok i) : cycle s = exec i s := by
  simp [cycle, fetchDecode, fetch_ok h, decodeFetched, hd]

/-- The decoder answers an instruction exactly where the opcode has a row. -/
theorem decode_cases (op a b : Byte) :
    (opcodeRow op = none ∧ decode op a b = .error (.invalidOpcode op)) ∨
      ∃ i, decode op a b = .ok i := by
  cases h : opcodeRow op with
  | none => exact .inl ⟨rfl, by simp only [decode, h]⟩
  | some row => exact .inr ⟨row.mnemonic.withOperands a b, by simp only [decode, h]⟩

/-- Everything a step can do: idle, a fault of fetch or decode, or the decoded instruction. -/
theorem step_cases (s : State) :
    (s.status ≠ .running ∧ step s = .next s) ∨
    (s.status = .running ∧ 254 ≤ s.pc.toNat ∧ step s = .next (s.enterFault (.outOfBounds 256))) ∨
    (s.status = .running ∧ s.pc.toNat ≤ 253 ∧ opcodeRow (s.byteAt s.pc.toNat) = none ∧
      step s = .next (s.enterFault (.invalidOpcode (s.byteAt s.pc.toNat)))) ∨
    (s.status = .running ∧ s.pc.toNat ≤ 253 ∧ ∃ i,
      decode (s.byteAt s.pc.toNat) (s.byteAt (s.pc.toNat + 1)) (s.byteAt (s.pc.toNat + 2)) = .ok i ∧
      step s = exec i s) := by
  by_cases hr : s.status = .running
  · rw [step_running hr]
    by_cases hp : s.pc.toNat ≤ 253
    · rcases decode_cases (s.byteAt s.pc.toNat) (s.byteAt (s.pc.toNat + 1))
        (s.byteAt (s.pc.toNat + 2)) with ⟨hd, -⟩ | ⟨i, hd⟩
      · exact .inr (.inr (.inl ⟨hr, hp, hd, cycle_noOpcode hp hd⟩))
      · exact .inr (.inr (.inr ⟨hr, hp, i, hd, cycle_decoded hp hd⟩))
    · exact .inr (.inl ⟨hr, by omega, cycle_fetchFault (by omega)⟩)
  · exact .inl ⟨hr, step_idle hr⟩

/-- The end of a step is a next state, whatever the body gave. -/
theorem complete_isNext (s : State) (r : Except Fault State) : ∃ t, complete s r = .next t := by
  cases r with
  | ok t => exact ⟨t, rfl⟩
  | error f => exact ⟨s.enterFault f, rfl⟩

/-- Every meaning is the completion of a body of primitives. -/
theorem exec_isComplete (i : Instr) (s : State) : ∃ r, exec i s = complete s r := by
  cases i <;> simp only [exec] <;> exact ⟨_, rfl⟩

end Sys2Proof.Machine
end

