-- ==== Sys2Proof/Laws/Exec.lean ====
section
/-! SUPPORT. What every instruction can do, said once: the relation `Completed`, one constructor for each
way an instruction completes, the relation `Raised` for the faults, and the inversion of `exec` over
both. -/

namespace Sys2Proof.Machine

/-- The fall-through address of an instruction of length `n` that does not run past 255. -/
abbrev State.pcPlus (s : State) (n : Nat) : Byte := BitVec.ofNat 8 (s.pc.toNat + n)

/-- The state after SPDec at SP ≥ 1 (R151). -/
abbrev State.spDown (s : State) : State := s.setSp (BitVec.ofNat 8 (s.sp.toNat - 1))

/-- The state after SPInc at SP ≤ 254 (R152). -/
abbrev State.spUp (s : State) : State := s.setSp (BitVec.ofNat 8 (s.sp.toNat + 1))

/-- `Completed i s t`: executed at `s`, the instruction `i` completes without a fault and leaves `t`. -/
inductive Completed : Instr → State → State → Prop where
  | hlt {s : State} : Completed .hlt s (s.setStatus .halted)
  | ldi {a b : Byte} {s : State} (r : RegIndex) (ha : a.toNat = r.val) (hp : s.pc.toNat + 3 < 256) :
      Completed (.ldi a b) s ((s.setReg r b).setPc (s.pcPlus 3))
  | prn {a : Byte} {s : State} (r : RegIndex) (ha : a.toNat = r.val) (hp : s.pc.toNat + 2 < 256) :
      Completed (.prn a) s ((s.emit (s.reg r)).setPc (s.pcPlus 2))
  | mul {a b : Byte} {s : State} (r q : RegIndex) (ha : a.toNat = r.val) (hb : b.toNat = q.val)
      (hp : s.pc.toNat + 3 < 256) :
      Completed (.mul a b) s
        ((s.setReg r (BitVec.ofNat 8 ((s.reg r).toNat * (s.reg q).toNat))).setPc (s.pcPlus 3))
  | add {a b : Byte} {s : State} (r q : RegIndex) (ha : a.toNat = r.val) (hb : b.toNat = q.val)
      (hp : s.pc.toNat + 3 < 256) :
      Completed (.add a b) s
        ((s.setReg r (BitVec.ofNat 8 ((s.reg r).toNat + (s.reg q).toNat))).setPc (s.pcPlus 3))
  | cmp {a b : Byte} {s : State} (r q : RegIndex) (ha : a.toNat = r.val) (hb : b.toNat = q.val)
      (hp : s.pc.toNat + 3 < 256) :
      Completed (.cmp a b) s ((s.setFl (compareFlags (s.reg r) (s.reg q))).setPc (s.pcPlus 3))
  | push {a : Byte} {s : State} (r : RegIndex) (ha : a.toNat = r.val) (hs : 1 ≤ s.sp.toNat)
      (hp : s.pc.toNat + 2 < 256) :
      Completed (.push a) s
        ((s.spDown.setByte (s.sp.toNat - 1) (s.spDown.reg r)).setPc (s.pcPlus 2))
  | pop {a : Byte} {s : State} (r : RegIndex) (ha : a.toNat = r.val)
      (hs : (s.setReg r (s.byteAt s.sp.toNat)).sp.toNat ≤ 254) (hp : s.pc.toNat + 2 < 256) :
      Completed (.pop a) s ((s.setReg r (s.byteAt s.sp.toNat)).spUp.setPc (s.pcPlus 2))
  | call {a : Byte} {s : State} (r : RegIndex) (ha : a.toNat = r.val) (hs : 1 ≤ s.sp.toNat)
      (hp : s.pc.toNat + 2 < 256) :
      Completed (.call a) s
        ((s.spDown.setByte (s.sp.toNat - 1) (s.pcPlus 2)).setPc (s.spDown.reg r))
  | ret {s : State} (hs : s.sp.toNat ≤ 254) :
      Completed .ret s ((s.setPc (s.byteAt s.sp.toNat)).spUp)
  | jmp {a : Byte} {s : State} (r : RegIndex) (ha : a.toNat = r.val) :
      Completed (.jmp a) s (s.setPc (s.reg r))
  | jeqTaken {a : Byte} {s : State} (r : RegIndex) (ha : a.toNat = r.val)
      (he : equalFlag s.fl = true) : Completed (.jeq a) s (s.setPc (s.reg r))
  | jeqNot {a : Byte} {s : State} (r : RegIndex) (ha : a.toNat = r.val)
      (he : equalFlag s.fl = false) (hp : s.pc.toNat + 2 < 256) :
      Completed (.jeq a) s (s.setPc (s.pcPlus 2))
  | jneTaken {a : Byte} {s : State} (r : RegIndex) (ha : a.toNat = r.val)
      (he : equalFlag s.fl = false) : Completed (.jne a) s (s.setPc (s.reg r))
  | jneNot {a : Byte} {s : State} (r : RegIndex) (ha : a.toNat = r.val)
      (he : equalFlag s.fl = true) (hp : s.pc.toNat + 2 < 256) :
      Completed (.jne a) s (s.setPc (s.pcPlus 2))

/-- `Raised i s f`: a fault `f` the execution of `i` at `s` can raise (R193), with what it needs. -/
inductive Raised : Instr → State → Fault → Prop where
  | register {i : Instr} {s : State} (b : Byte) (hb : b ∈ registerBytes i) (h8 : 8 ≤ b.toNat) :
      Raised i s (.invalidRegister b)
  | fallThrough {i : Instr} {s : State} (n : Nat) (hn : n ≤ 3) (hp : 256 ≤ s.pc.toNat + n) :
      Raised i s (.outOfBounds ((s.pc.toNat + n : Nat) : Int))
  | stackLow {i : Instr} {s : State} (hs : s.sp.toNat = 0) : Raised i s (.outOfBounds (-1))
  | stackHigh {i : Instr} {s : State} : Raised i s (.outOfBounds 256)

theorem advance_eq_error {n : Nat} {s : State} {f : Fault} (h : advance n s = .error f) :
    256 ≤ s.pc.toNat + n ∧ f = .outOfBounds ((s.pc.toNat + n : Nat) : Int) := by
  rcases advance_cases n s with ⟨-, e⟩ | ⟨hp, e⟩ <;> rw [e] at h <;> cases h
  exact ⟨hp, rfl⟩

theorem nextPC_eq_error {n : Nat} {s : State} {f : Fault} (h : nextPC n s = .error f) :
    256 ≤ s.pc.toNat + n ∧ f = .outOfBounds ((s.pc.toNat + n : Nat) : Int) := by
  by_cases hp : s.pc.toNat + n < 256
  · rw [nextPC_ok hp] at h; cases h
  · rw [nextPC_error (Nat.le_of_not_lt hp)] at h; cases h; exact ⟨Nat.le_of_not_lt hp, rfl⟩

theorem spDec_eq_error {s : State} {f : Fault} (h : spDec s = .error f) :
    s.sp.toNat = 0 ∧ f = .outOfBounds (-1) := by
  rcases spDec_cases s with ⟨-, e⟩ | ⟨hs, e⟩ <;> rw [e] at h <;> cases h
  exact ⟨hs, rfl⟩

theorem spInc_eq_error {s : State} {f : Fault} (h : spInc s = .error f) :
    s.sp.toNat = 255 ∧ f = .outOfBounds 256 := by
  rcases spInc_cases s with ⟨-, e⟩ | ⟨hs, e⟩ <;> rw [e] at h <;> cases h
  exact ⟨hs, rfl⟩

theorem aluUnit_mul (p q : Byte) :
    aluUnit .MUL p q = .ok (some (BitVec.ofNat 8 (p.toNat * q.toNat)), none) := rfl

theorem aluUnit_add (p q : Byte) :
    aluUnit .ADD p q = .ok (some (BitVec.ofNat 8 (p.toNat + q.toNat)), none) := rfl

theorem aluUnit_cmp (p q : Byte) : aluUnit .CMP p q = .ok (none, some (compareFlags p q)) := rfl

theorem pred_toNat {v : Byte} (h : 1 ≤ v.toNat) : (BitVec.ofNat 8 (v.toNat - 1)).toNat = v.toNat - 1 := by
  rw [BitVec.toNat_ofNat]; have := v.isLt; exact Nat.mod_eq_of_lt (by omega)

theorem succ_toNat {v : Byte} (h : v.toNat ≤ 254) : (BitVec.ofNat 8 (v.toNat + 1)).toNat = v.toNat + 1 := by
  rw [BitVec.toNat_ofNat]; exact Nat.mod_eq_of_lt (by omega)

/-- Three ALU instructions raise the register check's fault or `NextPC`'s, and no other. -/
theorem aluStep_raised {i : Instr} {m : Mnemonic} {op : AluOp} {a b : Byte} {s : State} {f : Fault}
    (hm : m.aluOp = some op) (hi : registerBytes i = [a, b]) (h : aluStep m a b s = .error f) :
    Raised i s f := by
  rcases bind_error.1 h with h | ⟨⟨r, q⟩, -, h⟩
  · rcases checkRegs_eq_error.1 h with ⟨h8, rfl⟩ | ⟨-, h8, rfl⟩
    · exact .register a (by simp [hi]) h8
    · exact .register b (by simp [hi]) h8
  · simp only [aluUnit, hm, ok_bind] at h
    have hpc : ∀ res, (s.writeAlu r res).pc = s.pc := by
      rintro ⟨_ | v, _ | g⟩ <;> rfl
    obtain ⟨hp, rfl⟩ := advance_eq_error h
    rw [hpc] at hp ⊢
    exact .fallThrough 3 (by omega) hp

/-- Everything `exec` can do: the instruction completes as `Completed` says, or it raised a fault
`Raised` names and the state is the fault entry. -/
theorem exec_inv {i : Instr} {s t : State} (h : exec i s = .next t) :
    Completed i s t ∨ ∃ f, Raised i s f ∧ t = s.enterFault f := by
  cases i <;> simp only [exec] at h <;> rcases complete_next h with g | ⟨f, g, rfl⟩ <;>
    first
    | refine .inr ⟨f, ?_, rfl⟩
    | left
  case hlt.inl => cases g; exact .hlt
  case hlt.inr => cases g
  case ldi.inl a b =>
    obtain ⟨r, hr, g⟩ := bind_ok.1 g
    rcases advance_cases 3 (s.setReg r b) with ⟨hp, e⟩ | ⟨-, e⟩ <;> rw [e] at g <;> cases g
    exact .ldi r (checkReg_eq_ok.1 hr) hp
  case ldi.inr =>
    rcases bind_error.1 g with g | ⟨r, -, g⟩
    · obtain ⟨h8, rfl⟩ := checkReg_eq_error.1 g; exact .register _ (by simp [registerBytes]) h8
    · obtain ⟨hp, rfl⟩ := advance_eq_error g; exact .fallThrough 3 (by omega) hp
  case prn.inl a =>
    obtain ⟨r, hr, g⟩ := bind_ok.1 g
    rcases advance_cases 2 (s.emit (s.reg r)) with ⟨hp, e⟩ | ⟨-, e⟩ <;> rw [e] at g <;> cases g
    exact .prn r (checkReg_eq_ok.1 hr) hp
  case prn.inr =>
    rcases bind_error.1 g with g | ⟨r, -, g⟩
    · obtain ⟨h8, rfl⟩ := checkReg_eq_error.1 g; exact .register _ (by simp [registerBytes]) h8
    · obtain ⟨hp, rfl⟩ := advance_eq_error g; exact .fallThrough 2 (by omega) hp
  case mul.inl a b =>
    obtain ⟨⟨r, q⟩, hr, g⟩ := bind_ok.1 g
    obtain ⟨ha, hb⟩ := checkRegs_eq_ok.1 hr
    simp only [aluUnit_mul, ok_bind, State.writeAlu] at g
    rcases advance_cases 3 (s.setReg r (BitVec.ofNat 8 ((s.reg r).toNat * (s.reg q).toNat)))
      with ⟨hp, e⟩ | ⟨-, e⟩ <;> rw [e] at g <;> cases g
    exact .mul r q ha hb hp
  case mul.inr => exact aluStep_raised rfl rfl g
  case add.inl a b =>
    obtain ⟨⟨r, q⟩, hr, g⟩ := bind_ok.1 g
    obtain ⟨ha, hb⟩ := checkRegs_eq_ok.1 hr
    simp only [aluUnit_add, ok_bind, State.writeAlu] at g
    rcases advance_cases 3 (s.setReg r (BitVec.ofNat 8 ((s.reg r).toNat + (s.reg q).toNat)))
      with ⟨hp, e⟩ | ⟨-, e⟩ <;> rw [e] at g <;> cases g
    exact .add r q ha hb hp
  case add.inr => exact aluStep_raised rfl rfl g
  case cmp.inl a b =>
    obtain ⟨⟨r, q⟩, hr, g⟩ := bind_ok.1 g
    obtain ⟨ha, hb⟩ := checkRegs_eq_ok.1 hr
    simp only [aluUnit_cmp, ok_bind, State.writeAlu] at g
    rcases advance_cases 3 (s.setFl (compareFlags (s.reg r) (s.reg q)))
      with ⟨hp, e⟩ | ⟨-, e⟩ <;> rw [e] at g <;> cases g
    exact .cmp r q ha hb hp
  case cmp.inr => exact aluStep_raised rfl rfl g
  case push.inl a =>
    obtain ⟨r, hr, g⟩ := bind_ok.1 g
    rcases spDec_cases s with ⟨hs, e⟩ | ⟨-, e⟩ <;> rw [e] at g
    · rw [ok_bind, memWrite_byte, ok_bind, State.sp_setSp, pred_toNat hs] at g
      rcases advance_cases 2 (s.spDown.setByte (s.sp.toNat - 1) (s.spDown.reg r))
        with ⟨hp, e⟩ | ⟨-, e⟩ <;> rw [e] at g <;> cases g
      exact .push r (checkReg_eq_ok.1 hr) hs hp
    · cases g
  case push.inr =>
    rcases bind_error.1 g with g | ⟨r, -, g⟩
    · obtain ⟨h8, rfl⟩ := checkReg_eq_error.1 g; exact .register _ (by simp [registerBytes]) h8
    rcases spDec_cases s with ⟨hs, e⟩ | ⟨hs, e⟩ <;> rw [e] at g
    · rw [ok_bind, memWrite_byte, ok_bind] at g
      obtain ⟨hp, rfl⟩ := advance_eq_error g; exact .fallThrough 2 (by omega) hp
    · cases g; exact .stackLow hs
  case pop.inl a =>
    obtain ⟨r, hr, g⟩ := bind_ok.1 g
    rw [memRead_byte, ok_bind] at g
    rcases spInc_cases (s.setReg r (s.byteAt s.sp.toNat)) with ⟨hs, e⟩ | ⟨-, e⟩ <;> rw [e] at g
    · rw [ok_bind] at g
      rcases advance_cases 2 (s.setReg r (s.byteAt s.sp.toNat)).spUp
        with ⟨hp, e⟩ | ⟨-, e⟩ <;> rw [e] at g <;> cases g
      exact .pop r (checkReg_eq_ok.1 hr) hs hp
    · cases g
  case pop.inr =>
    rcases bind_error.1 g with g | ⟨r, -, g⟩
    · obtain ⟨h8, rfl⟩ := checkReg_eq_error.1 g; exact .register _ (by simp [registerBytes]) h8
    rw [memRead_byte, ok_bind] at g
    rcases spInc_cases (s.setReg r (s.byteAt s.sp.toNat)) with ⟨hs, e⟩ | ⟨hs, e⟩ <;> rw [e] at g
    · rw [ok_bind] at g
      obtain ⟨hp, rfl⟩ := advance_eq_error g; exact .fallThrough 2 (by omega) hp
    · cases g; exact .stackHigh
  case call.inl a =>
    obtain ⟨r, hr, g⟩ := bind_ok.1 g
    rcases spDec_cases s with ⟨hs, e⟩ | ⟨-, e⟩ <;> rw [e] at g
    · rw [ok_bind] at g
      obtain ⟨v, hv, g⟩ := bind_ok.1 g
      by_cases hp : s.pc.toNat + 2 < 256
      · rw [nextPC_ok (s := s.spDown) hp] at hv
        cases hv
        rw [memWrite_byte, ok_bind, State.sp_setSp, pred_toNat hs] at g
        cases g
        exact .call r (checkReg_eq_ok.1 hr) hs hp
      · rw [nextPC_error (s := s.spDown) (Nat.le_of_not_lt hp)] at hv
        cases hv
    · cases g
  case call.inr =>
    rcases bind_error.1 g with g | ⟨r, -, g⟩
    · obtain ⟨h8, rfl⟩ := checkReg_eq_error.1 g; exact .register _ (by simp [registerBytes]) h8
    rcases spDec_cases s with ⟨hs, e⟩ | ⟨hs, e⟩ <;> rw [e] at g
    · rw [ok_bind] at g
      rcases bind_error.1 g with g | ⟨v, -, g⟩
      · obtain ⟨hp, rfl⟩ := nextPC_eq_error g; exact .fallThrough 2 (by omega) hp
      · rw [memWrite_byte, ok_bind] at g; cases g
    · cases g; exact .stackLow hs
  case ret.inl =>
    rw [memRead_byte, ok_bind] at g
    rcases spInc_cases (s.setPc (s.byteAt s.sp.toNat)) with ⟨hs, e⟩ | ⟨-, e⟩ <;> rw [e] at g <;>
      cases g
    exact .ret hs
  case ret.inr =>
    rw [memRead_byte, ok_bind] at g
    obtain ⟨-, rfl⟩ := spInc_eq_error g; exact .stackHigh
  case jmp.inl a =>
    obtain ⟨r, hr, g⟩ := bind_ok.1 g
    cases g
    exact .jmp r (checkReg_eq_ok.1 hr)
  case jmp.inr =>
    rcases bind_error.1 g with g | ⟨r, -, g⟩
    · obtain ⟨h8, rfl⟩ := checkReg_eq_error.1 g; exact .register _ (by simp [registerBytes]) h8
    · cases g
  case jeq.inl a =>
    obtain ⟨r, hr, g⟩ := bind_ok.1 g
    cases he : equalFlag s.fl <;> simp only [he, branch, if_true, Bool.false_eq_true, if_false] at g
    · rcases advance_cases 2 s with ⟨hp, e⟩ | ⟨-, e⟩ <;> rw [e] at g <;> cases g
      exact .jeqNot r (checkReg_eq_ok.1 hr) he hp
    · cases g
      exact .jeqTaken r (checkReg_eq_ok.1 hr) he
  case jeq.inr =>
    rcases bind_error.1 g with g | ⟨r, -, g⟩
    · obtain ⟨h8, rfl⟩ := checkReg_eq_error.1 g; exact .register _ (by simp [registerBytes]) h8
    · unfold branch at g
      split at g
      · cases g
      · obtain ⟨hp, rfl⟩ := advance_eq_error g; exact .fallThrough 2 (by omega) hp
  case jne.inl a =>
    obtain ⟨r, hr, g⟩ := bind_ok.1 g
    cases he : equalFlag s.fl <;>
      simp only [he, branch, Bool.not_false, Bool.not_true, if_true, Bool.false_eq_true, if_false]
        at g
    · cases g
      exact .jneTaken r (checkReg_eq_ok.1 hr) he
    · rcases advance_cases 2 s with ⟨hp, e⟩ | ⟨-, e⟩ <;> rw [e] at g <;> cases g
      exact .jneNot r (checkReg_eq_ok.1 hr) he hp
  case jne.inr =>
    rcases bind_error.1 g with g | ⟨r, -, g⟩
    · obtain ⟨h8, rfl⟩ := checkReg_eq_error.1 g; exact .register _ (by simp [registerBytes]) h8
    · unfold branch at g
      split at g
      · cases g
      · obtain ⟨hp, rfl⟩ := advance_eq_error g; exact .fallThrough 2 (by omega) hp

/-- The other direction: what `Completed` says is what `exec` answers. -/
theorem exec_of_completed {i : Instr} {s t : State} (h : Completed i s t) : exec i s = .next t := by
  cases h with
  | hlt => rfl
  | ldi r ha hp =>
    rw [exec, execLdi, checkReg_eq_ok.2 ha, ok_bind, advance_ok (by exact hp)]; rfl
  | prn r ha hp =>
    rw [exec, execPrn, checkReg_eq_ok.2 ha, ok_bind, advance_ok (by exact hp)]; rfl
  | mul r q ha hb hp =>
    rw [exec, execMul, aluStep, (checkRegs_eq_ok (p := (r, q))).2 ⟨ha, hb⟩, ok_bind]
    simp only [aluUnit_mul, ok_bind, State.writeAlu]
    rw [advance_ok (by exact hp)]; rfl
  | add r q ha hb hp =>
    rw [exec, execAdd, aluStep, (checkRegs_eq_ok (p := (r, q))).2 ⟨ha, hb⟩, ok_bind]
    simp only [aluUnit_add, ok_bind, State.writeAlu]
    rw [advance_ok (by exact hp)]; rfl
  | cmp r q ha hb hp =>
    rw [exec, execCmp, aluStep, (checkRegs_eq_ok (p := (r, q))).2 ⟨ha, hb⟩, ok_bind]
    simp only [aluUnit_cmp, ok_bind, State.writeAlu]
    rw [advance_ok (by exact hp)]; rfl
  | push r ha hs hp =>
    rw [exec, execPush, checkReg_eq_ok.2 ha, ok_bind, spDec_ok hs, ok_bind, memWrite_byte, ok_bind,
      State.sp_setSp, pred_toNat hs, advance_ok (by exact hp)]
    rfl
  | pop r ha hs hp =>
    rw [exec, execPop, checkReg_eq_ok.2 ha, ok_bind, memRead_byte, ok_bind, spInc_ok hs, ok_bind,
      advance_ok (by exact hp)]
    rfl
  | call r ha hs hp =>
    rw [exec, execCall, checkReg_eq_ok.2 ha, ok_bind, spDec_ok hs, ok_bind,
      nextPC_ok (by exact hp), ok_bind, memWrite_byte, ok_bind, State.sp_setSp, pred_toNat hs]
    rfl
  | ret hs => rw [exec, execRet, memRead_byte, ok_bind, spInc_ok (by exact hs)]; rfl
  | jmp r ha => rw [exec, execJmp, checkReg_eq_ok.2 ha, ok_bind]; rfl
  | jeqTaken r ha he => rw [exec, execJeq, checkReg_eq_ok.2 ha, ok_bind, he]; rfl
  | jeqNot r ha he hp =>
    rw [exec, execJeq, checkReg_eq_ok.2 ha, ok_bind, he, branch, if_neg (by simp), advance_ok hp]; rfl
  | jneTaken r ha he => rw [exec, execJne, checkReg_eq_ok.2 ha, ok_bind, he]; rfl
  | jneNot r ha he hp =>
    rw [exec, execJne, checkReg_eq_ok.2 ha, ok_bind, he, branch, if_neg (by simp), advance_ok hp]; rfl

/-! ### What a completed instruction stores -/

theorem decrementedSp_eq (s : State) :
    decrementedSp s = if 1 ≤ s.sp.toNat then some (s.sp.toNat - 1) else none := by
  unfold decrementedSp
  rcases spDec_cases s with ⟨h, e⟩ | ⟨h, e⟩ <;> rw [e]
  · simp only [State.sp_setSp, pred_toNat h, if_pos h]
  · simp only [h, if_neg (show ¬1 ≤ 0 by omega)]

/-- The store address does not depend on memory. -/
theorem storeAddress_mem (i : Instr) (s : State) (m : Memory) :
    storeAddress i { s with mem := m } = storeAddress i s := by
  cases i <;> simp only [storeAddress, decrementedSp_eq] <;> rfl

/-- A completed instruction leaves every byte but the one at its store address. -/
theorem Completed.byteAt {i : Instr} {s t : State} (h : Completed i s t) {addr : Nat}
    (ha : storeAddress i s ≠ some addr) : t.byteAt addr = s.byteAt addr := by
  cases h with
  | push r hr hs hp =>
    simp only [storeAddress, decrementedSp_eq, if_pos hs, ne_eq, Option.some.injEq] at ha
    simp [Ne.symm ha]
  | call r hr hs hp =>
    simp only [storeAddress, decrementedSp_eq, if_pos hs, ne_eq, Option.some.injEq] at ha
    simp [Ne.symm ha]
  | _ => rfl

/-- A completed instruction run on another memory `m`, equal at SP where POP and RET read it: the same
end, the same stored byte, and `m` elsewhere. -/
theorem Completed.onMemory {i : Instr} {s t : State} (h : Completed i s t) (m : Memory)
    (hm : i.mnemonic = .POP ∨ i.mnemonic = .RET → m.get s.sp.toNat = s.byteAt s.sp.toNat) :
    ∃ u, Completed i { s with mem := m } u ∧ { u with mem := t.mem } = t ∧
      ∀ addr, storeAddress i s = some addr → u.byteAt addr = t.byteAt addr := by
  cases h with
  | hlt => exact ⟨_, .hlt, rfl, nofun⟩
  | ldi r ha hp => exact ⟨_, .ldi r ha hp, rfl, nofun⟩
  | prn r ha hp => exact ⟨_, .prn r ha hp, rfl, nofun⟩
  | mul r q ha hb hp => exact ⟨_, .mul r q ha hb hp, rfl, nofun⟩
  | add r q ha hb hp => exact ⟨_, .add r q ha hb hp, rfl, nofun⟩
  | cmp r q ha hb hp => exact ⟨_, .cmp r q ha hb hp, rfl, nofun⟩
  | push r ha hs hp =>
    refine ⟨_, .push r ha hs hp, rfl, fun addr h => ?_⟩
    simp only [storeAddress, decrementedSp_eq, if_pos hs, Option.some.injEq] at h
    subst h; simp; rfl
  | pop r ha hs hp =>
    have e : ({ s with mem := m } : State).byteAt ({ s with mem := m } : State).sp.toNat =
      s.byteAt s.sp.toNat := hm (.inl rfl)
    refine ⟨_, .pop r ha (by rw [e]; exact hs) hp, ?_, nofun⟩
    rw [e]; rfl
  | call r ha hs hp =>
    refine ⟨_, .call r ha hs hp, rfl, fun addr h => ?_⟩
    simp only [storeAddress, decrementedSp_eq, if_pos hs, Option.some.injEq] at h
    subst h; simp
  | ret hs =>
    have e : ({ s with mem := m } : State).byteAt ({ s with mem := m } : State).sp.toNat =
      s.byteAt s.sp.toNat := hm (.inr rfl)
    refine ⟨_, .ret hs, ?_, nofun⟩
    rw [e]; rfl
  | jmp r ha => exact ⟨_, .jmp r ha, rfl, nofun⟩
  | jeqTaken r ha he => exact ⟨_, .jeqTaken r ha he, rfl, nofun⟩
  | jeqNot r ha he hp => exact ⟨_, .jeqNot r ha he hp, rfl, nofun⟩
  | jneTaken r ha he => exact ⟨_, .jneTaken r ha he, rfl, nofun⟩
  | jneNot r ha he hp => exact ⟨_, .jneNot r ha he hp, rfl, nofun⟩

end Sys2Proof.Machine
end

