-- ==== Sys2Proof/Laws/Image.lean ====
section
/-! SUPPORT. One lemma for each function of the image format (R84), over the lines written out as
`ImageRow`. -/

namespace Sys2Proof.Machine

/-- A literal's value, with its first character the most significant bit (R84). -/
theorem binaryValue_literal (v : Byte) : binaryValue 0 (binaryLiteral v) = some v.toNat := by
  revert v; decide +kernel

theorem mem_binaryLiteral {v : Byte} {c : Char} (h : c ∈ binaryLiteral v) : c = '0' ∨ c = '1' := by
  obtain ⟨k, -, rfl⟩ := List.mem_map.1 h
  split
  · exact .inr rfl
  · exact .inl rfl

/-- The text before a comment that follows characters other than `#`. -/
theorem beforeComment_append {cs : List Char} (h : ∀ c ∈ cs, c ≠ '#') (comment : List Char) :
    beforeComment (cs ++ '#' :: comment) = cs := by
  rw [beforeComment, List.takeWhile_append_of_pos fun c hc => by simpa using h c hc]
  simp

theorem beforeComment_none {cs : List Char} (h : ∀ c ∈ cs, c ≠ '#') : beforeComment cs = cs :=
  List.takeWhile_eq_self_iff.2 fun c hc => by simpa using h c hc

/-- Text that ends in no blank loses a gap of blanks after it, and nothing else. -/
theorem dropTrailing_append {cs gap : List Char} (hc : ∀ c ∈ cs, isBlank c = false)
    (hg : ∀ c ∈ gap, isBlank c = true) : dropTrailing (cs ++ gap) = cs := by
  have h : cs.reverse.dropWhile isBlank = cs.reverse := by
    cases e : cs.reverse with
    | nil => rfl
    | cons d rest =>
      have hd : d ∈ cs := List.mem_reverse.1 (e ▸ List.mem_cons_self)
      rw [List.dropWhile_cons, hc d hd]; rfl
  rw [dropTrailing, List.reverse_append, List.dropWhile_append_of_pos
    fun c h' => hg c (List.mem_reverse.1 h'), h, List.reverse_reverse]

/-- Text without blanks is what either loader reads. -/
theorem trimIf_noBlank {cs : List Char} (h : ∀ c ∈ cs, isBlank c = false) (accept : Bool) :
    trimIf accept cs = cs := by
  cases accept with
  | false => rfl
  | true =>
    have e : cs.dropWhile isBlank = cs := by
      cases cs with
      | nil => rfl
      | cons d rest => rw [List.dropWhile_cons, h d List.mem_cons_self]; rfl
    rw [trimIf, if_pos rfl, e]
    simpa using dropTrailing_append (gap := []) h (by simp)

theorem binaryLiteral_noBlank (v : Byte) : ∀ c ∈ binaryLiteral v, isBlank c = false := fun c hc => by
  rcases mem_binaryLiteral hc with rfl | rfl <;> rfl

theorem binaryLiteral_noHash (v : Byte) : ∀ c ∈ binaryLiteral v, c ≠ '#' := fun c hc => by
  rcases mem_binaryLiteral hc with rfl | rfl <;> decide

/-- The literal of a line that holds a byte, with or without a comment. -/
theorem literalText_byte (v : Byte) (gap : Nat) (comment : Option (List Char)) :
    literalText (ImageRow.text ⟨some v, gap, comment⟩) = binaryLiteral v := by
  cases comment with
  | none =>
    have hn : (binaryLiteral v).contains '#' = false := by
      rw [Bool.eq_false_iff, Ne, List.contains_iff_mem]
      exact fun h => binaryLiteral_noHash v _ h rfl
    simp only [literalText, ImageRow.text, hn, Bool.false_and, Bool.false_eq_true, if_false]
    exact beforeComment_none (binaryLiteral_noHash v)
  | some c =>
    have hb : beforeComment (binaryLiteral v ++ List.replicate gap ' ' ++ '#' :: c) =
        binaryLiteral v ++ List.replicate gap ' ' := by
      refine beforeComment_append (fun d hd => ?_) c
      rcases List.mem_append.1 hd with hd | hd
      · exact binaryLiteral_noHash v d hd
      · rw [List.eq_of_mem_replicate hd]; decide
    have hnot : (binaryLiteral v ++ List.replicate gap ' ').all isBlank = false := by
      rw [List.all_append, Bool.and_eq_false_iff]
      exact .inl (List.all_eq_false.2
        ⟨_, List.mem_map_of_mem List.mem_cons_self, by split <;> decide⟩)
    simp only [literalText, ImageRow.text, hb, hnot]
    rw [if_pos (by simp)]
    exact dropTrailing_append (binaryLiteral_noBlank v) fun d hd => by
      rw [List.eq_of_mem_replicate hd]; rfl

/-- What a line of the form R84 gives holds, for either loader: its byte, or nothing. -/
theorem parseLine_text (r : ImageRow) (accept : Bool) :
    parseLine accept r.text = match r.value with
      | some v => .byte v
      | none => .skip := by
  obtain ⟨value, gap, comment⟩ := r
  cases value with
  | some v =>
    have hl : (binaryLiteral v).length = 8 := rfl
    have hne : (binaryLiteral v).isEmpty = false := rfl
    simp only [parseLine, literalText_byte, trimIf_noBlank (binaryLiteral_noBlank v), hne, hl,
      binaryValue_literal, if_true, Bool.false_eq_true, if_false, BitVec.ofNat_toNat,
      BitVec.setWidth_eq]
  | none => cases comment <;> cases accept <;> simp [parseLine, literalText, ImageRow.text,
      beforeComment, trimIf, dropTrailing]

/-- An image of such lines holds their bytes in file order. -/
theorem parseImage_text (rows : List ImageRow) (accept : Bool) :
    parseImage accept (rows.map ImageRow.text) = some (rows.filterMap ImageRow.value) := by
  induction rows with
  | nil => rfl
  | cons r rest ih =>
    rw [List.map_cons, parseImage, parseLine_text, ih]
    cases h : r.value with
    | some v => simp [h]
    | none => simp [h]

/-- A malformed line refuses the image it stands in. -/
theorem parseImage_malformed {accept : Bool} {lines : List (List Char)} {line : List Char}
    (h : line ∈ lines) (hm : parseLine accept line = .malformed) : parseImage accept lines = none := by
  induction lines with
  | nil => cases h
  | cons l rest ih =>
    rcases List.mem_cons.1 h with rfl | h
    · rw [parseImage, hm]
    · rw [parseImage, ih h]; cases parseLine accept l <;> rfl

end Sys2Proof.Machine
end

