-- ==== Sys2Proof/Laws/PerInstr.lean ====
section
/-! SUPPORT. Statements about every instruction, proved constructor by constructor: the encoder's first
byte is the opcode whose row of Table E2 names that instruction, with its format and length. -/

namespace Sys2Proof.Laws.EncodedAsItsRow

/-- The encoding of `i` starts with the opcode of `i`'s row of the opcode map and has its length. -/
def Statement (i : Instr) : Prop :=
  ∃ op operands, encode i = op :: operands ∧ opcodeRow op = some ⟨op, i.mnemonic, i.format⟩ ∧
    (encode i).length = i.length

theorem hlt : Statement .hlt := ⟨_, _, rfl, rfl, rfl⟩

theorem ldi (a b : Byte) : Statement (.ldi a b) := ⟨_, _, rfl, rfl, rfl⟩

theorem prn (a : Byte) : Statement (.prn a) := ⟨_, _, rfl, rfl, rfl⟩

theorem mul (a b : Byte) : Statement (.mul a b) := ⟨_, _, rfl, rfl, rfl⟩

theorem add (a b : Byte) : Statement (.add a b) := ⟨_, _, rfl, rfl, rfl⟩

theorem cmp (a b : Byte) : Statement (.cmp a b) := ⟨_, _, rfl, rfl, rfl⟩

theorem push (a : Byte) : Statement (.push a) := ⟨_, _, rfl, rfl, rfl⟩

theorem pop (a : Byte) : Statement (.pop a) := ⟨_, _, rfl, rfl, rfl⟩

theorem call (a : Byte) : Statement (.call a) := ⟨_, _, rfl, rfl, rfl⟩

theorem ret : Statement .ret := ⟨_, _, rfl, rfl, rfl⟩

theorem jmp (a : Byte) : Statement (.jmp a) := ⟨_, _, rfl, rfl, rfl⟩

theorem jeq (a : Byte) : Statement (.jeq a) := ⟨_, _, rfl, rfl, rfl⟩

theorem jne (a : Byte) : Statement (.jne a) := ⟨_, _, rfl, rfl, rfl⟩

end Sys2Proof.Laws.EncodedAsItsRow
end

