-- ==== Sys2Proof/Laws/Ports.lean ====
section
/-! SUPPORT. One lemma for each shared operation of the ports, and that `withFetchWord` places the
instruction the next step runs. -/

namespace Sys2Proof.Machine

/-- A state-access write in Ready is what its body says (R43). -/
theorem readyOnly_ready {s : State} (h : s.status = .ready) (t : PortReply × State) :
    readyOnly s t = t := if_pos h

/-- A state-access write outside Ready is refused and changes nothing (R43, I17). -/
theorem readyOnly_refused {s : State} (h : s.status ≠ .ready) (t : PortReply × State) :
    readyOnly s t = (.refused, s) := if_neg h

theorem hostWriteMem_valid {addr : Int} (v : Byte) (s : State) (h0 : 0 ≤ addr) (h1 : addr < 256) :
    hostWriteMem addr v s = (.ok, s.setByte addr.toNat v) := by
  rw [hostWriteMem, memWrite_valid v s h0 h1]

theorem hostWriteMem_invalid {addr : Int} (v : Byte) (s : State) (h : addr < 0 ∨ 256 ≤ addr) :
    hostWriteMem addr v s = (.outOfBounds addr, s) := by
  rw [hostWriteMem, memWrite_invalid v s h]

/-- One byte of a load: written, then the rest of the image (R212). -/
theorem loadFrom_cons {k : Nat} {s : State} (h : s.status = .ready) (hk : k < 256) (v : Byte)
    (rest : List Byte) : loadFrom k (v :: rest) s = loadFrom (k + 1) rest (s.setByte k v) := by
  have hw := hostWriteMem_valid (addr := (k : Int)) v s (by omega) (by omega)
  simp only [loadFrom, port, readyOnly_ready h, hw, Int.toNat_natCast]

/-- Byte 256 of an image is refused by the memory (R212). -/
theorem loadFrom_full {s : State} (h : s.status = .ready) (v : Byte) (rest : List Byte) :
    loadFrom 256 (v :: rest) s = (.outOfBounds 256, s) := by
  have hw := hostWriteMem_invalid (addr := 256) v s (.inr (by omega))
  simp only [loadFrom, port, readyOnly_ready h, Nat.cast_ofNat, hw]

theorem State.fetchSlot_le (s : State) : s.fetchSlot.toNat ≤ 253 := by
  unfold State.fetchSlot
  split
  · assumption
  · decide

/-- The next step after `withFetchWord` runs exactly the instruction the decoder reads from the word. -/
theorem step_withFetchWord {s : State} {nbits w : Nat} {i : Instr}
    (h : decodeTableWord nbits w = some i) :
    step (s.withFetchWord nbits w) = exec i (s.withFetchWord nbits w) := by
  have hp : (s.withFetchWord nbits w).pc.toNat ≤ 253 := s.fetchSlot_le
  refine (step_running rfl).trans (cycle_decoded hp ?_)
  have hb : ∀ a, (s.withFetchWord nbits w).byteAt a =
      (s.placeWord s.fetchSlot.toNat (wordBits nbits w)).byteAt a := fun _ => rfl
  have hpc : (s.withFetchWord nbits w).pc = s.fetchSlot := rfl
  simp only [decodeTableWord] at h
  simp only [hb, hpc, State.placeWord, State.byteAt_setByte]
  rw [if_neg (by omega), if_neg (by omega), if_pos trivial, if_neg (by omega), if_pos trivial,
    if_pos trivial]
  split at h <;> cases h
  assumption

end Sys2Proof.Machine
end

