-- ==== Sys2Proof/Tests/Slice0.lean ====
section
/-! SUPPORT. Tests. Expected results are the spec's own: the binary column of Table E2 (R77), the worked
examples and vectors W<n> and V<n> of `95_test_vectors.md`, and the rules named. Then one witness theorem
for each statement that has hypotheses: a concrete state and operands that meet them together, at the
boundaries of each clause. -/

namespace Sys2Proof.Tests

open Sys2Proof Sys2Proof.Machine

/-! ## Helpers -/

/-- The reset state with bytes placed from `addr` upwards. -/
def placed (addr : Nat) : List Byte → State → State
  | [], s => s
  | v :: rest, s => placed (addr + 1) rest (s.setByte addr v)

/-- A Running state at `pc` with bytes placed there, from the reset state: how the vectors of
`95_test_vectors.md` start. -/
def at' (pc : Byte) (bytes : List Byte) : State := (placed pc.toNat bytes State.reset).startAt pc

/-- A view of the state after one step; none for a fault or a refusal of the interface. -/
def view {α : Type} (f : State → α) (s : State) : Option α :=
  match step s with
  | .next t => some (f t)
  | .fault _ => none
  | .refused _ => none

/-- The fault a state records, with `fault_pc`, and whether the rest is untouched. -/
def faulted (s : State) : Option (Option FaultRecord × Bool) :=
  view (fun t => (t.fault, decide (t = { s with status := .faulted, fault := t.fault }))) s

/-! ## Well-formedness: an ill-formed term for each check -/

theorem test_wf_ldi : (Instr.ldi 8 5).wellFormed = false := by decide
theorem test_wf_ldi_immediate : (Instr.ldi 7 255).wellFormed = true := by decide
theorem test_wf_prn : (Instr.prn 8).wellFormed = false := by decide
theorem test_wf_mul : (Instr.mul 8 0).wellFormed = false ∧ (Instr.mul 0 8).wellFormed = false := by decide
theorem test_wf_add : (Instr.add 255 0).wellFormed = false ∧ (Instr.add 0 9).wellFormed = false := by decide
theorem test_wf_cmp : (Instr.cmp 8 0).wellFormed = false ∧ (Instr.cmp 0 8).wellFormed = false := by decide
theorem test_wf_push : (Instr.push 8).wellFormed = false := by decide
theorem test_wf_pop : (Instr.pop 8).wellFormed = false := by decide
theorem test_wf_call : (Instr.call 128).wellFormed = false := by decide
theorem test_wf_jmp : (Instr.jmp 8).wellFormed = false := by decide
theorem test_wf_jeq : (Instr.jeq 8).wellFormed = false := by decide
theorem test_wf_jne : (Instr.jne 8).wellFormed = false := by decide

/-! ## Decoding: a word of every row, from Table E2 -/

theorem test_decode_hlt : decodeTableWord 8 0b00000001 = some .hlt := by decide
theorem test_decode_ldi : decodeTableWord 24 0b111111110000001110000010 = some (.ldi 3 255) := by decide
theorem test_decode_prn : decodeTableWord 16 0b0000010101000111 = some (.prn 5) := by decide
theorem test_decode_mul : decodeTableWord 24 0b000000010000000010100010 = some (.mul 0 1) := by decide
theorem test_decode_add : decodeTableWord 24 0b000001110000001010100000 = some (.add 2 7) := by decide
theorem test_decode_cmp : decodeTableWord 24 0b000001000000011010100111 = some (.cmp 6 4) := by decide
theorem test_decode_push : decodeTableWord 16 0b0000011101000101 = some (.push 7) := by decide
theorem test_decode_pop : decodeTableWord 16 0b0000010001000110 = some (.pop 4) := by decide
theorem test_decode_call : decodeTableWord 16 0b0000000101010000 = some (.call 1) := by decide
theorem test_decode_ret : decodeTableWord 8 0b00010001 = some .ret := by decide
theorem test_decode_jmp : decodeTableWord 16 0b0000001101010100 = some (.jmp 3) := by decide
theorem test_decode_jeq : decodeTableWord 16 0b0000001001010101 = some (.jeq 2) := by decide
theorem test_decode_jne : decodeTableWord 16 0b0000001101010110 = some (.jne 3) := by decide
/-- V62: SUB's place in the ALU range is no instruction. -/
theorem test_decode_illegal : decodeTableWord 24 0x0100A1 = none := by decide
/-- Bits above `nbits` are 0. -/
theorem test_decode_masked : decodeTableWord 8 0xFFFF82 = some (.ldi 0 0) := by decide
/-- The first instruction after reset, placed by `withFetchWord`, is the one that runs (V02). -/
theorem test_withFetchWord :
    view (fun t => (t.reg 3, t.pc, t.status)) (State.reset.withFetchWord 24 0xFF0382)
      = some (0xFF#8, 3#8, .running) := by decide

/-! ## One step of each instruction -/

/-- V01. -/
theorem test_V01_hlt : view (fun t => (t.status, t.pc)) (at' 0 [0x01]) = some (.halted, 0#8) := by decide
/-- V14. -/
theorem test_V14_hlt : faulted (at' 254 [0x01]) = some (some ⟨.outOfBounds 256, 254⟩, true) := by decide
/-- V06: an immediate of 8 or more is data. -/
theorem test_V06_ldi : view (fun t => (t.reg 0, t.pc)) (at' 0 [0x82, 0x00, 0xC8]) = some (200#8, 3#8) := by
  decide
/-- V04. -/
theorem test_V04_ldi : faulted (at' 253 [0x82, 0x00, 0x01])
    = some (some ⟨.outOfBounds 256, 253⟩, true) := by decide
/-- V07. -/
theorem test_V07_prn : view (fun t => (t.out, t.pc)) ((at' 0 [0x47, 0x05]).setReg 5 255)
    = some ([255#8], 2#8) := by decide
/-- V08. -/
theorem test_V08_prn : faulted (at' 0 [0x47, 0x08]) = some (some ⟨.invalidRegister 8, 0⟩, true) := by
  decide
/-- V20. -/
theorem test_V20_mul : view (fun t => (t.reg 0, t.pc, t.fl))
    (((at' 0 [0xA2, 0x00, 0x01]).setReg 0 255).setReg 1 255) = some (1#8, 3#8, 0#8) := by decide
/-- V24: a source that is also the destination. -/
theorem test_V24_mul : view (fun t => t.reg 1) ((at' 0 [0xA2, 0x01, 0x01]).setReg 1 16)
    = some 0#8 := by decide
/-- V16: ADD on R7 wraps and is not checked. -/
theorem test_V16_add : view (fun t => (t.sp, t.pc)) ((at' 0 [0xA0, 0x07, 0x01]).setReg 1 0x20)
    = some (0x14#8, 3#8) := by decide
/-- V19: `a` is checked first. -/
theorem test_V19_add : faulted (at' 0 [0xA0, 0x09, 0x0A])
    = some (some ⟨.invalidRegister 9, 0⟩, true) := by decide
/-- V29: the comparison is unsigned. -/
theorem test_V29_cmp : view (fun t => (t.fl, t.reg 0, t.pc))
    (((at' 0 [0xA7, 0x00, 0x01]).setReg 0 0x80).setReg 1 0x7F) = some (2#8, 0x80#8, 3#8) := by decide
/-- V30: the old FL is replaced. -/
theorem test_V30_cmp : view (fun t => t.fl) (((at' 0 [0xA7, 0x03, 0x03]).setReg 3 9).setFl 4)
    = some 1#8 := by decide
/-- V32: the decremented SP is pushed. -/
theorem test_V32_push : view (fun t => (t.sp, t.byteAt 0xF3, t.pc)) (at' 0 [0x45, 0x07])
    = some (0xF3#8, 0xF3#8, 2#8) := by decide
/-- V49: a PUSH over its own operand byte uses the operand it fetched. -/
theorem test_V49_push : view (fun t => (t.sp, t.byteAt 0x11, t.pc))
    (((at' 0x10 [0x45, 0x00]).setSp 0x12).setReg 0 0x99) = some (0x11#8, 0x99#8, 0x12#8) := by decide
/-- V38: POP R7 increments the popped value. -/
theorem test_V38_pop : view (fun t => (t.sp, t.pc)) ((at' 0 [0x46, 0x07]).setByte 0xF4 0x10)
    = some (0x11#8, 2#8) := by decide
/-- V33. -/
theorem test_V33_pop : faulted ((at' 0 [0x46, 0x00]).setSp 0xFF)
    = some (some ⟨.outOfBounds 256, 0⟩, true) := by decide
/-- V53: CALL R7 jumps to the decremented SP. -/
theorem test_V53_call : view (fun t => (t.sp, t.byteAt 0xF3, t.pc)) (at' 6 [0x50, 0x07])
    = some (0xF3#8, 8#8, 0xF3#8) := by decide
/-- V52. -/
theorem test_V52_call : faulted (((at' 6 [0x50, 0x01]).setSp 0).setReg 1 12)
    = some (some ⟨.outOfBounds (-1), 6⟩, true) := by decide
/-- V54. -/
theorem test_V54_ret : view (fun t => (t.pc, t.sp)) (((at' 15 [0x11]).setSp 0xF3).setByte 0xF3 8)
    = some (8#8, 0xF4#8) := by decide
/-- V51. -/
theorem test_V51_ret : faulted ((at' 15 [0x11]).setSp 0xFF)
    = some (some ⟨.outOfBounds 256, 15⟩, true) := by decide
/-- V56. -/
theorem test_V56_jmp : view (fun t => t.pc) ((at' 0 [0x54, 0x03]).setReg 3 12) = some 12#8 := by decide
/-- V57. -/
theorem test_V57_jmp : faulted (at' 0 [0x54, 0x08]) = some (some ⟨.invalidRegister 8, 0⟩, true) := by
  decide
/-- V41 and V43. -/
theorem test_V41_V43_jeq :
    view (fun t => t.pc) (((at' 9 [0x55, 0x02]).setReg 2 12).setFl 1) = some 12#8 ∧
    view (fun t => t.pc) (((at' 9 [0x55, 0x02]).setReg 2 12).setFl 4) = some 11#8 := by decide
/-- V58: the register is checked although the jump is not taken. -/
theorem test_V58_jeq : faulted (at' 0 [0x55, 0x08]) = some (some ⟨.invalidRegister 8, 0⟩, true) := by
  decide
/-- V44 and V45. -/
theorem test_V44_V45_jne :
    view (fun t => t.pc) ((at' 20 [0x56, 0x03]).setReg 3 12) = some 12#8 ∧
    view (fun t => t.pc) (((at' 20 [0x56, 0x03]).setReg 3 12).setFl 1) = some 22#8 := by decide
/-- V59. -/
theorem test_V59_jne : faulted ((at' 0 [0x56, 0x08]).setFl 1)
    = some (some ⟨.invalidRegister 8, 0⟩, true) := by decide
/-- V68: the fetch fault comes before decode. -/
theorem test_V68_fetch : faulted (at' 254 [0xFF]) = some (some ⟨.outOfBounds 256, 254⟩, true) := by decide
/-- P5b: empty memory, after `run`. -/
theorem test_P5b_emptyMemory : faulted (port .run State.reset).2
    = some (some ⟨.invalidOpcode 0x00, 0⟩, true) := by decide

/-! ## The ports, the image, the text forms -/

/-- The example image of R84, the program of P1, for either loader of D25. -/
theorem test_image : ∀ accept, parseImage accept (["10000010 # LDI R0,8", "00000000", "00001000",
    "10000010 # LDI R1,9", "00000001", "00001001", "10100010 # MUL R0,R1", "00000000", "00000001",
    "01000111 # PRN R0", "00000000", "00000001 # HLT"].map String.toList) =
    some ([0x82#8, 0x00#8, 0x08#8, 0x82#8, 0x01#8, 0x09#8] ++
      [0xA2#8, 0x00#8, 0x01#8, 0x47#8, 0x00#8, 0x01#8]) := by decide
/-- R84: blank and comment-only lines are skipped. I3: a space at an end of a line is open. -/
theorem test_image_lines : (∀ accept, parseLine accept [] = .skip ∧
    parseLine accept "# only a comment".toList = .skip) ∧
    parseLine true " 00000001".toList = .byte 1 ∧ parseLine false " 00000001".toList = .malformed := by
  decide
/-- Decision D25: not 8 characters of `0` and `1` before any `#`. -/
theorem test_image_malformed : ∀ accept, parseLine accept "1000001".toList = .malformed ∧
    parseLine accept "1000001 0 # two words".toList = .malformed ∧
    parseLine accept "10000012".toList = .malformed := by decide
/-- R82's examples. -/
theorem test_assembler : (Instr.ldi 0 8).assemblerForm = some "LDI R0,8" ∧
    (Instr.mul 0 1).assemblerForm = some "MUL R0,R1" ∧ (Instr.jeq 2).assemblerForm = some "JEQ R2" ∧
    (Instr.prn 8).assemblerForm = none := by decide
/-- R46: two-digit uppercase hexadecimal. -/
theorem test_hexField : hexField 0xF4 = "F4" ∧ hexField 0x0A = "0A" := by decide
/-- R46: the record holds the registers before the instruction executes. -/
theorem test_trace : (traceRecord (at' 0 [0x82, 0x03, 0xFF])).map (fun r => (r.pc, r.op, r.a, r.b, r.x.get 3))
    = some (0#8, 0x82#8, 0x03#8, 0xFF#8, 0#8) := by decide
/-- R43 and Table X1: FL values outside the four are refused, and the kind read with no fault is 0. -/
theorem test_ports : (port (.writeFl 3) State.reset).1 = .refused ∧ State.reset.faultCode = 0 ∧
    (port (.writeMem 256 1) State.reset).1 = .outOfBounds 256 ∧ State.reset.running = false := by decide

/-! ## Witnesses: the hypotheses of each statement can be met -/

/-- A Ready, a Halted and a Faulted state. -/
def halted : State := State.reset.setStatus .halted
def faultedState : State := State.reset.enterFault (.outOfBounds 256)

theorem witness_NothingMovesOutsideRunning : State.reset.status ≠ .running ∧ halted.status ≠ .running ∧
    faultedState.status ≠ .running := by decide
theorem witness_RunStartsOnlyFromReady : State.reset.status = .ready ∧ halted.status ≠ .ready := by decide
theorem witness_OnlyResetLeavesTheTerminalStates :
    halted.ended ∧ faultedState.ended ∧ PortCmd.run ≠ .reset := ⟨.inl rfl, .inr rfl, by decide⟩
theorem witness_HostWritesOnlyInReady : halted.status ≠ .ready ∧ State.reset.status = .ready ∧
    (0 : Int) ≤ 0 ∧ (255 : Int) < 256 ∧ ((-1 : Int) < 0) ∧ (256 : Int) ≤ 256 ∧
    (3#8 ≠ 0x00#8 ∧ 3#8 ≠ 0x01#8 ∧ 3#8 ≠ 0x02#8 ∧ 3#8 ≠ 0x04#8) := by decide
theorem witness_LoadWritesTheImageFromZero : State.reset.status = .ready ∧
    ([] : List Byte).length ≤ 256 ∧ (List.replicate 256 1#8).length ≤ 256 :=
  ⟨rfl, by decide, by rw [List.length_replicate]⟩
theorem witness_OversizeImageIsRefused :
    State.reset.status = .ready ∧ 256 < (List.replicate 257 1#8).length :=
  ⟨rfl, by rw [List.length_replicate]; decide⟩
theorem witness_ImageLoadsItsLinesInFileOrder :
    "1000001".toList ∈ ["00000001".toList, "1000001".toList] ∧
    ∀ accept, parseLine accept "1000001".toList = .malformed := by decide
theorem witness_StepRunsTheDecodedInstruction : let s := at' 253 [0x01]
    s.status = .running ∧ s.pc.toNat ≤ 253 ∧ decode (s.byteAt s.pc.toNat) (s.byteAt (s.pc.toNat + 1))
      (s.byteAt (s.pc.toNat + 2)) = .ok .hlt := ⟨rfl, by decide, rfl⟩
theorem witness_FetchFaultsInTheTopTwoCells : (at' 254 []).status = .running ∧
    254 ≤ (at' 254 []).pc.toNat ∧ 254 ≤ (at' 255 []).pc.toNat := by decide
theorem witness_IllegalOpcodesFault : let s := at' 253 [0xA1]
    s.status = .running ∧ s.pc.toNat ≤ 253 ∧
    s.byteAt s.pc.toNat ∉ [0x01#8, 0x82#8, 0x47#8, 0xA2#8, 0xA0#8, 0xA7#8, 0x45#8] ++
      [0x46#8, 0x50#8, 0x11#8, 0x54#8, 0x55#8, 0x56#8] := by decide
theorem witness_DecodeAgreesWithEncode : encode (.prn 3) <+: encode (.prn 3) := by decide
theorem witness_OperandCountIsTheTopTwoBits : opcodeRow 0x82#8 = some ⟨0x82#8, .LDI, .F2RI⟩ := rfl
/-- HLT at 253 with both bytes, PRN at 253, a RET whose stack byte is another, and a CALL that stores
over its own ignored byte (R217). -/
theorem witness_UnusedOperandBytesAreIgnored :
    (let s := at' 253 [0x01]
     s.status = .running ∧ s.pc.toNat ≤ 253 ∧ s.instrAtPc = .ok .hlt ∧ Instr.hlt.format = .F0 ∧
     Instr.hlt.mnemonic ≠ .POP ∧ Instr.hlt.mnemonic ≠ .RET) ∧
    (let s := at' 253 [0x47, 3]
     s.status = .running ∧ s.pc.toNat ≤ 253 ∧ s.instrAtPc = .ok (.prn 3) ∧ (Instr.prn 3).format = .F1R) ∧
    (let s := at' 0 [0x11]
     s.status = .running ∧ s.instrAtPc = .ok .ret ∧ Instr.ret.mnemonic = .RET ∧
     s.sp.toNat ≠ s.pc.toNat + 1 ∧ s.sp.toNat ≠ s.pc.toNat + 2) ∧
    (let s := (at' 0 [0x50, 0]).setSp 3
     s.status = .running ∧ s.instrAtPc = .ok (.call 0) ∧
     ∃ t, step s = .next t ∧ StoresAt s t (s.pc.toNat + 2)) :=
  ⟨⟨rfl, by decide, rfl, rfl, by decide, by decide⟩, ⟨rfl, by decide, rfl, rfl⟩,
    ⟨rfl, rfl, rfl, by decide, by decide⟩, ⟨rfl, rfl, _, rfl, by decide, _, rfl, rfl⟩⟩
theorem witness_RegisterReadsWhatWasWritten : (6 : RegIndex) ≠ 7 := by decide
theorem witness_RegisterIndexBelowEightOnly : (7#8).toNat < 8 ∧ 8 ≤ (8#8).toNat ∧ 8 ≤ (255#8).toNat ∧
    (Instr.add 0 8).wellFormed = false := by decide
theorem witness_FirstInvalidRegisterFaults :
    (registerBytes (.add 9 10)).find? (fun r => decide (8 ≤ r.toNat)) = some 9#8 ∧
    (registerBytes (.add 0 8)).find? (fun r => decide (8 ≤ r.toNat)) = some 8#8 ∧
    (registerBytes (.jeq 255)).find? (fun r => decide (8 ≤ r.toNat)) = some 255#8 := by decide
theorem witness_MemoryAccessesAreBoundsChecked : (0 : Int) ≤ 0 ∧ (255 : Int) ≤ 255 ∧ (-1 : Int) < 0 ∧
    (256 : Int) ≤ 256 := by decide
theorem witness_AluComputesItsThreeOperations : (0#8).toNat < (255#8).toNat ∧
    (0x7F#8).toNat < (0x80#8).toNat ∧ (5#8).toNat = (5#8).toNat := by decide
theorem witness_UnsupportedOperationIsUnreachable : let s := at' 254 []
    s.fault = none ∧ step s = .next (s.enterFault (.outOfBounds 256)) ∧
    (s.enterFault (.outOfBounds 256)).fault = some ⟨.outOfBounds 256, 254#8⟩ :=
  ⟨rfl, rfl, rfl⟩
theorem witness_LdiLoadsItsImmediate : (7#8).toNat < 8 ∧ (at' 252 []).pc.toNat ≤ 252 ∧
    (at' 253 []).pc.toNat = 253 := by decide
theorem witness_PrnAppendsTheRegister : (7#8).toNat < 8 ∧ (at' 253 []).pc.toNat ≤ 253 := by decide
theorem witness_MulWritesTheLowProduct : (0#8).toNat < 8 ∧ (7#8).toNat < 8 ∧
    (at' 252 []).pc.toNat ≤ 252 ∧ (at' 253 []).pc.toNat = 253 := by decide
theorem witness_AddWritesTheLowSum : (0#8).toNat < 8 ∧ (7#8).toNat < 8 ∧
    (at' 252 []).pc.toNat ≤ 252 ∧ (at' 253 []).pc.toNat = 253 := by decide
theorem witness_CmpReplacesTheFlags : (0#8).toNat < 8 ∧ (7#8).toNat < 8 ∧
    (at' 252 []).pc.toNat ≤ 252 ∧ (at' 253 []).pc.toNat = 253 ∧
    ((at' 0 []).reg 0).toNat < ((at' 0 []).reg 7).toNat ∧ (at' 0 []).reg 0 = (at' 0 []).reg 1 := by decide
theorem witness_PushStoresBelowTheStackPointer : (7#8).toNat < 8 ∧
    1 ≤ ((at' 253 []).setSp 1).sp.toNat ∧ ((at' 253 []).setSp 1).pc.toNat ≤ 253 ∧
    ((at' 253 []).setSp 0).sp.toNat = 0 := by decide
theorem witness_PopLoadsFromTheStackPointer :
    let s := (at' 253 []).setSp 254
    let f := (at' 0 []).setSp 255
    let g := (at' 0 []).setByte 0xF4 255
    (0#8).toNat < 8 ∧ (0#8).toNat ≠ 7 ∧ (7#8).toNat = 7 ∧ s.pc.toNat ≤ 253 ∧ s.sp.toNat ≤ 254 ∧
    (s.byteAt s.sp.toNat).toNat ≤ 254 ∧ f.sp.toNat = 255 ∧ (g.byteAt g.sp.toNat).toNat = 255 := by decide
theorem witness_CallPushesTheReturnAddress : (7#8).toNat < 8 ∧ (at' 253 []).pc.toNat ≤ 253 ∧
    1 ≤ ((at' 253 []).setSp 1).sp.toNat ∧ ((at' 253 []).setSp 0).sp.toNat = 0 := by decide
theorem witness_RetPopsTheReturnAddress : ((at' 0 []).setSp 254).sp.toNat ≤ 254 ∧
    ((at' 0 []).setSp 255).sp.toNat = 255 := by decide
theorem witness_JmpGoesToTheRegister : (0#8).toNat < 8 ∧ (7#8).toNat < 8 := by decide
theorem witness_JeqJumpsWhenEqual : (7#8).toNat < 8 ∧ ((at' 0 []).setFl 1).fl.getLsbD 0 = true ∧
    ((at' 253 []).setFl 4).fl.getLsbD 0 = false ∧ ((at' 253 []).setFl 4).pc.toNat ≤ 253 := by decide
theorem witness_JneJumpsWhenNotEqual : (7#8).toNat < 8 ∧ (at' 0 []).fl.getLsbD 0 = false ∧
    ((at' 253 []).setFl 1).fl.getLsbD 0 = true ∧ ((at' 253 []).setFl 1).pc.toNat ≤ 253 := by decide
theorem witness_RegisterFrame :
    exec (.push 0) (at' 0 []) = .next (((at' 0 []).spDown.setByte 0xF3 0).setPc 2) ∧
    (0 : RegIndex).val ∉ writtenRegs (.push 0) := ⟨exec_of_completed (.push 0 rfl (by decide) (by decide)), by decide⟩
theorem witness_MemoryFrame :
    exec (.push 0) (at' 0 []) = .next (((at' 0 []).spDown.setByte 0xF3 0).setPc 2) ∧
    (Instr.push 0).mnemonic = .PUSH ∧ spDec (at' 0 []) = .ok (at' 0 []).spDown ∧
    0xF4 ≠ (at' 0 []).spDown.sp.toNat :=
  ⟨exec_of_completed (.push 0 rfl (by decide) (by decide)), rfl, spDec_ok (by decide), by decide⟩
/-- A PUSH, which stores, and a RET, which reads the byte at SP; memories that differ at 9. -/
theorem witness_StepReadsFourBytesAtMost :
    (let s := at' 0 [0x45, 0]
     s.status = .running ∧ (∃ t, step s = .next t ∧ StoresAt s t 0xF3 ∧ ¬StoresAt s t 9) ∧
     (∀ k, k ≤ 2 → Memory.get [(0, 0x45#8), (9, 9#8)] (s.pc.toNat + k) = s.byteAt (s.pc.toNat + k)) ∧
     s.instrAtPc = .ok (.push 0) ∧ (Instr.push 0).mnemonic ≠ .POP ∧ (Instr.push 0).mnemonic ≠ .RET) ∧
    (let s := at' 0 [0x11]
     s.status = .running ∧ (∃ t, step s = .next t) ∧ s.instrAtPc = .ok .ret ∧
     (∀ k, k ≤ 2 → Memory.get [(0, 0x11#8), (9, 9#8)] (s.pc.toNat + k) = s.byteAt (s.pc.toNat + k)) ∧
     Memory.get [(0, 0x11#8), (9, 9#8)] s.sp.toNat = s.byteAt s.sp.toNat) :=
  ⟨⟨rfl, ⟨_, rfl, ⟨by decide, _, rfl, rfl⟩, fun ⟨_, i, hi, ha⟩ => by cases hi; exact absurd ha (by decide)⟩,
      by decide, rfl, by decide, by decide⟩,
    ⟨rfl, ⟨_, rfl⟩, rfl, by decide, by decide⟩⟩
/-- One instruction for each clause; CMP at the last pc where it completes, with valid registers. -/
theorem witness_FlagsAreCmpsAlone :
    (exec .hlt State.reset = .next halted ∧ Instr.hlt.mnemonic ≠ .CMP ∧ Instr.hlt.mnemonic ≠ .JEQ ∧
      Instr.hlt.mnemonic ≠ .JNE) ∧
    (let s := at' 252 [0xA7, 0, 7]
     (∃ t, exec (.cmp 0 7) s = .next t) ∧ (0#8).toNat < 8 ∧ (7#8).toNat < 8 ∧ s.pc.toNat ≤ 252) ∧
    (∃ t, exec (.jeq 7) State.reset = .next t) ∧ (Instr.jeq 7).mnemonic = .JEQ ∧
    (∃ t, exec (.jne 7) State.reset = .next t) ∧ (Instr.jne 7).mnemonic = .JNE ∧
    (4#8).getLsbD 0 = State.reset.fl.getLsbD 0 :=
  ⟨⟨rfl, by decide, by decide, by decide⟩, ⟨⟨_, rfl⟩, by decide, by decide, by decide⟩, ⟨_, rfl⟩, rfl,
    ⟨_, rfl⟩, rfl, by decide⟩
theorem witness_OutputIsOnlyAppended : exec .hlt State.reset = .next halted ∧
    Instr.hlt.mnemonic ≠ .PRN ∧ (Instr.prn 0).mnemonic = .PRN ∧
    step { State.reset with out := [] } = .next State.reset := ⟨rfl, by decide, rfl, rfl⟩
/-- One completing instruction for each class, at the last pc where it completes; JEQ not taken and
JNE taken. -/
theorem witness_NextPcFollowsItsClass : (at' 253 []).status = .running ∧
    (Instr.hlt.mnemonic.nextPcClass = .hold ∧
      ∃ t, exec .hlt (at' 253 []) = .next t ∧ t.status ≠ .faulted) ∧
    ((Instr.ldi 7 1).mnemonic.nextPcClass = .fallThrough ∧
      ∃ t, exec (.ldi 7 1) (at' 252 []) = .next t ∧ t.status ≠ .faulted) ∧
    ((Instr.call 7).mnemonic.nextPcClass = .register ∧
      ∃ t, exec (.call 7) (at' 253 []) = .next t ∧ t.status ≠ .faulted) ∧
    ((Instr.jeq 7).mnemonic.nextPcClass = .conditional ∧
      ¬((Instr.jeq 7).mnemonic = .JEQ ↔ (at' 253 []).fl.getLsbD 0 = true) ∧
      ∃ t, exec (.jeq 7) (at' 253 []) = .next t ∧ t.status ≠ .faulted) ∧
    (((Instr.jne 7).mnemonic = .JEQ ↔ (at' 253 []).fl.getLsbD 0 = true) ∧
      ∃ t, exec (.jne 7) (at' 253 []) = .next t ∧ t.status ≠ .faulted) ∧
    (Instr.ret.mnemonic.nextPcClass = .memory ∧
      ∃ t, exec .ret (at' 253 []) = .next t ∧ t.status ≠ .faulted) :=
  ⟨rfl, ⟨rfl, _, rfl, by decide⟩, ⟨rfl, _, rfl, by decide⟩, ⟨rfl, _, rfl, by decide⟩,
    ⟨rfl, by decide, _, rfl, by decide⟩, ⟨by decide, _, rfl, by decide⟩, ⟨rfl, _, rfl, by decide⟩⟩
theorem witness_RunningLeavesByHaltOrFault : let s := at' 253 [0x01]
    s.status = .running ∧ s.fault = none ∧ step s = .next (s.setStatus .halted) := ⟨rfl, rfl, rfl⟩
theorem witness_FaultsArePrecise : let s := at' 255 []
    s.status = .running ∧ step s = .next (s.enterFault (.outOfBounds 256)) ∧
    (s.enterFault (.outOfBounds 256)).status = .faulted := ⟨rfl, rfl, rfl⟩
/-- Every site of Table X2, and a step with none. -/
theorem witness_FaultSitesAreTableX2 : (at' 0 [0x01]).status = .running ∧
    (at' 0 [0x01]).fault = none ∧
    faultSite (at' 0 [0x01]) = none ∧
    faultSite (at' 254 [0xFF]) = some (.outOfBounds 256) ∧
    faultSite (at' 253 [0xA1]) = some (.invalidOpcode 0xA1) ∧
    faultSite (at' 253 [0xA0, 9, 10]) = some (.invalidRegister 9) ∧
    faultSite (at' 0 [0xA0, 0, 8]) = some (.invalidRegister 8) ∧
    faultSite ((at' 0 [0x45, 9]).setSp 0) = some (.invalidRegister 9) ∧
    faultSite ((at' 0 [0x50, 0]).setSp 0) = some (.outOfBounds (-1)) ∧
    faultSite ((at' 0 [0x46, 0]).setSp 255) = some (.outOfBounds 256) ∧
    faultSite ((at' 0 [0x46, 7]).setByte 0xF4 255) = some (.outOfBounds 256) ∧
    faultSite ((at' 0 [0x11]).setSp 255) = some (.outOfBounds 256) ∧
    faultSite (at' 253 [0x82, 7, 1]) = some (.outOfBounds 256) := by decide
theorem witness_MemorySurvivesTheEndOfARun : let s := at' 0 [0x01]
    step s = .next (s.setStatus .halted) ∧ (s.setStatus .halted).ended ∧
    (∃ t, step (at' 0 [0x50, 0]) = .next t ∧ t.byteAt 0xF3 ≠ (at' 0 [0x50, 0]).byteAt 0xF3) ∧
    (port (.writeMem 9 9) State.reset).2.byteAt 9 ≠ State.reset.byteAt 9 :=
  ⟨rfl, .inl rfl, ⟨_, rfl, by decide⟩, by decide⟩
theorem witness_EqualTestIsBitZero : (4#8).getLsbD 0 = State.reset.fl.getLsbD 0 ∧
    exec (.jne 0) State.reset = .next State.reset ∧
    exec (.jeq 0) State.reset = .next (State.reset.setPc 2) := ⟨by decide, rfl, rfl⟩
theorem witness_TraceRecordsTheFetch : (at' 253 []).status = .running ∧ (at' 253 []).pc.toNat ≤ 253 ∧
    254 ≤ (at' 254 []).pc.toNat := by decide
theorem witness_PushThenPopIsTheIdentity : (7#8).toNat < 8 ∧ 1 ≤ ((at' 251 []).setSp 1).sp.toNat ∧
    ((at' 251 []).setSp 1).pc.toNat ≤ 251 := by decide
/-- W5: CALL R1 at 6 with a RET at 12. -/
theorem witness_CallThenRetReturns :
    let s := ((at' 6 [0x50, 0x01]).setByte 12 0x11).setReg 1 12
    s.status = .running ∧ s.pc.toNat ≤ 253 ∧ (1#8).toNat < 8 ∧ s.byteAt s.pc.toNat = 0x50#8 ∧
    s.byteAt (s.pc.toNat + 1) = 1#8 ∧ 1 ≤ s.sp.toNat ∧
    ∃ t, step s = .next t ∧ t.pc.toNat ≤ 253 ∧ t.byteAt t.pc.toNat = 0x11#8 :=
  ⟨rfl, by decide, by decide, by decide, by decide, by decide, _, rfl, by decide, by decide⟩
/-- A Running state that stores, with FL set. -/
theorem witness_StepKeepsTheInvariant : let s := ((at' 0 [0x45, 7]).setFl 1)
    s.Inv ∧ ∃ t, step s = .next t ∧ t.mem ≠ s.mem :=
  ⟨⟨by decide, by decide, by decide, fun r h => by cases h⟩, _, rfl, by decide⟩
theorem witness_TransactionsKeepTheInvariant : State.reset.Inv :=
  ⟨by decide, by decide, by decide, fun r h => by cases h⟩
theorem witness_ReachableStatesAreSound : Reachable State.reset ∧
    exec (.cmp 0 0) State.reset = .next ((State.reset.setFl 1).setPc 3) ∧
    ((State.reset.setFl 1).setPc 3).fault = none := ⟨.reset, rfl, rfl⟩

end Sys2Proof.Tests
end

section
/-! PROOFS. The invariant: what a completed instruction and a raised fault do to it, and that every step
and every transaction keeps it (R29, R34, R193). -/

namespace Sys2Proof.Machine

/-! ### Building and using the invariant -/

theorem compareFlags_cases (p q : Byte) :
    compareFlags p q = 0x01#8 ∨ compareFlags p q = 0x02#8 ∨ compareFlags p q = 0x04#8 := by
  unfold compareFlags
  split
  · exact .inr (.inr rfl)
  · split
    · exact .inr (.inl rfl)
    · exact .inl rfl

theorem mem_legalFlags {v : Byte} :
    v ∈ legalFlags ↔ v = 0x00#8 ∨ v = 0x01#8 ∨ v = 0x02#8 ∨ v = 0x04#8 := by
  simp [legalFlags, flagEqual, flagGreater, flagLess]

theorem compareFlags_legal (p q : Byte) : compareFlags p q ∈ legalFlags :=
  mem_legalFlags.2 (.inr (compareFlags_cases p q))

/-- Outside Faulted no fault is recorded (R34). -/
theorem State.Inv.fault_eq_none {s : State} (h : s.Inv) (hs : s.status ≠ .faulted) :
    s.fault = none :=
  Option.not_isSome_iff_eq_none.1 fun hf => hs (h.faultIffFaulted.2 hf)

/-- A state that is not Faulted and records no fault needs only its memory and FL to be in order. -/
theorem State.Inv.of_fault_eq_none {s : State} (hm : s.mem.wf) (hf : s.fl ∈ legalFlags)
    (hs : s.status ≠ .faulted) (hn : s.fault = none) : s.Inv :=
  ⟨hm, hf, by simp [hs, hn], by simp [hn]⟩

/-- Fault entry keeps the invariant for every fault of Table X2 (R98). -/
theorem State.Inv.enterFault {s : State} {f : Fault} (h : s.Inv) (hf : f.possible) :
    (s.enterFault f).Inv where
  memWf := h.memWf
  flagsLegal := h.flagsLegal
  faultIffFaulted := by simp
  faultPossible r hr := by
    obtain rfl : ⟨f, s.pc⟩ = r := Option.some.inj hr
    exact ⟨rfl, hf⟩

theorem State.reset_inv : State.reset.Inv :=
  .of_fault_eq_none Memory.reset_wf (by decide) (by decide) rfl

/-! ### What completing and faulting do to the fields of the invariant -/

theorem Completed.mem_wf {i : Instr} {s t : State} (h : Completed i s t) (hm : s.mem.wf) :
    t.mem.wf := by
  have hsp : s.sp.toNat - 1 < 256 := by have := s.sp.isLt; omega
  cases h with
  | push r ha hs hp => exact Memory.set_wf hm hsp _
  | call r ha hs hp => exact Memory.set_wf hm hsp _
  | _ => exact hm

/-- No completing instruction but CMP writes FL (R28). -/
theorem Completed.fl_eq {i : Instr} {s t : State} (h : Completed i s t) (hi : i.mnemonic ≠ .CMP) :
    t.fl = s.fl := by
  cases h with
  | cmp r q ha hb hp => exact absurd rfl hi
  | _ => rfl

/-- A completing CMP leaves the flags of a comparison (R133). -/
theorem Completed.fl_of_cmp {a b : Byte} {s t : State} (h : Completed (.cmp a b) s t) :
    ∃ p q, t.fl = compareFlags p q := by
  cases h with
  | cmp r q ha hb hp => exact ⟨s.reg r, s.reg q, rfl⟩

theorem Completed.fl_legal {i : Instr} {s t : State} (h : Completed i s t)
    (hf : s.fl ∈ legalFlags) : t.fl ∈ legalFlags := by
  cases h with
  | cmp r q ha hb hp => exact compareFlags_legal _ _
  | _ => exact hf

theorem Completed.fault_eq {i : Instr} {s t : State} (h : Completed i s t) : t.fault = s.fault := by
  cases h <;> rfl

/-- An instruction that completes does not enter Faulted. -/
theorem Completed.status_ne_faulted {i : Instr} {s t : State} (h : Completed i s t)
    (hs : s.status ≠ .faulted) : t.status ≠ .faulted := by
  cases h with
  | hlt => exact nofun
  | _ => exact hs

/-- Below 254 an execution raises only faults of Table X2: a fall-through past 255 reaches 256. -/
theorem Raised.possible {i : Instr} {s : State} {f : Fault} (h : Raised i s f)
    (hpc : s.pc.toNat ≤ 253) : f.possible := by
  cases h with
  | register b hb h8 => exact h8
  | fallThrough n hn hp => exact .inr (by omega)
  | stackLow hs => exact .inl rfl
  | stackHigh => exact .inr rfl

/-! ### Steps and transactions -/

theorem State.Inv.completed {i : Instr} {s t : State} (h : s.Inv) (hs : s.status ≠ .faulted)
    (hc : Completed i s t) : t.Inv :=
  .of_fault_eq_none (hc.mem_wf h.memWf) (hc.fl_legal h.flagsLegal) (hc.status_ne_faulted hs)
    (hc.fault_eq.trans (h.fault_eq_none hs))

theorem State.Inv.exec {i : Instr} {s t : State} (h : s.Inv) (hs : s.status ≠ .faulted)
    (hpc : s.pc.toNat ≤ 253) (he : exec i s = .next t) : t.Inv := by
  rcases exec_inv he with hc | ⟨f, hf, rfl⟩
  · exact h.completed hs hc
  · exact h.enterFault (hf.possible hpc)

theorem State.Inv.step {s t : State} (h : s.Inv) (hst : step s = .next t) : t.Inv := by
  rcases step_cases s with ⟨-, e⟩ | ⟨-, -, e⟩ | ⟨-, -, hop, e⟩ | ⟨hr, hpc, i, -, e⟩ <;>
    rw [e] at hst
  case inr.inr.inr => exact h.exec (by simp [hr]) hpc hst
  all_goals cases hst
  · exact h
  · exact h.enterFault (.inr rfl)
  · exact h.enterFault hop

/-- A guarded write keeps what its body keeps in Ready. -/
theorem readyOnly_keeps {P : State → Prop} {s : State} {r : PortReply × State} (h : P s)
    (hr : s.status = .ready → P r.2) : P (readyOnly s r).2 := by
  by_cases hs : s.status = .ready
  · rw [readyOnly_ready hs]; exact hr hs
  · rw [readyOnly_refused hs]; exact h

theorem State.Inv.port {s : State} (h : s.Inv) (c : PortCmd) : (port c s).2.Inv := by
  have hready (hs : s.status = .ready) : s.status ≠ .faulted ∧ s.fault = none :=
    have hne : s.status ≠ .faulted := by simp [hs]
    ⟨hne, h.fault_eq_none hne⟩
  cases c with
  | reset => exact State.reset_inv
  | run =>
    simp only [Machine.port]
    split
    · rename_i hs
      exact .of_fault_eq_none h.memWf h.flagsLegal nofun (hready hs).2
    · exact h
  | writeMem addr v =>
    refine readyOnly_keeps h fun hs => ?_
    by_cases ha : 0 ≤ addr ∧ addr < 256
    · rw [hostWriteMem_valid v s ha.1 ha.2]
      exact .of_fault_eq_none (Memory.set_wf h.memWf (by omega) v) h.flagsLegal
        (hready hs).1 (hready hs).2
    · rw [hostWriteMem_invalid v s (by omega)]; exact h
  | writeReg r v =>
    exact readyOnly_keeps h fun hs =>
      .of_fault_eq_none h.memWf h.flagsLegal (hready hs).1 (hready hs).2
  | writeFl v =>
    refine readyOnly_keeps h fun hs => ?_
    split
    · rename_i hv
      exact .of_fault_eq_none h.memWf hv (hready hs).1 (hready hs).2
    · exact h
  | writePc v =>
    exact readyOnly_keeps h fun hs =>
      .of_fault_eq_none h.memWf h.flagsLegal (hready hs).1 (hready hs).2

/-- The invariant holds of every state the host and the machine can bring about. -/
theorem Reachable.inv {s : State} (h : Reachable s) : s.Inv := by
  induction h with
  | reset => exact State.reset_inv
  | step _ hst ih => exact ih.step hst
  | port c _ ih => exact ih.port c

/-! ### The statements -/

/-- Settles O50: the step's four outcomes each keep the invariant. -/
theorem stepKeepsTheInvariant : Obligations.StepKeepsTheInvariant := by
  intro s t h hst
  exact h.step hst

/-- Settles O51: by the transaction; the writes happen in Ready, where no fault is recorded. -/
theorem transactionsKeepTheInvariant : Obligations.TransactionsKeepTheInvariant := by
  intro s c h
  exact h.port c

/-- Settles O52: the invariant holds of every reachable state, and a completed CMP leaves the flags of
its comparison. -/
theorem reachableStatesAreSound : Obligations.ReachableStatesAreSound := by
  intro s hs
  have h := hs.inv
  refine ⟨h.memWf, mem_legalFlags.1 h.flagsLegal, ?_, fun a b t ht hn => ?_⟩
  · rw [h.faultIffFaulted, Option.isSome_iff_ne_none]
  · rcases exec_inv ht with hc | ⟨f, -, rfl⟩
    · obtain ⟨p, q, hfl⟩ := hc.fl_of_cmp
      rw [hfl]; exact compareFlags_cases p q
    · exact absurd hn (by simp)

end Sys2Proof.Machine
end

section
/-! PROOFS. FL and the output log are not read by the meanings, but for the Equal bit by JEQ and JNE: an
instruction commutes with changing both (R28, R36). -/

namespace Sys2Proof.Machine

/-- The state with its flags byte changed by `g` and the bytes `o` put before its output log. -/
def State.overlay (g : Byte → Byte) (o : List Byte) (s : State) : State :=
  { s with fl := g s.fl, out := o ++ s.out }

section Overlay

variable (g : Byte → Byte) (o : List Byte) (s : State)

/-! ### The accessors and updates commute with `overlay` -/

@[simp] theorem State.overlay_fl : (s.overlay g o).fl = g s.fl := rfl
@[simp] theorem State.reg_overlay (q : RegIndex) : (s.overlay g o).reg q = s.reg q := rfl
@[simp] theorem State.sp_overlay : (s.overlay g o).sp = s.sp := rfl
@[simp] theorem State.byteAt_overlay (a : Nat) : (s.overlay g o).byteAt a = s.byteAt a := rfl

@[simp] theorem State.setReg_overlay (r : RegIndex) (v : Byte) :
    (s.overlay g o).setReg r v = (s.setReg r v).overlay g o := rfl
@[simp] theorem State.setSp_overlay (v : Byte) :
    (s.overlay g o).setSp v = (s.setSp v).overlay g o := rfl
@[simp] theorem State.setPc_overlay (v : Byte) :
    (s.overlay g o).setPc v = (s.setPc v).overlay g o := rfl
@[simp] theorem State.setByte_overlay (a : Nat) (v : Byte) :
    (s.overlay g o).setByte a v = (s.setByte a v).overlay g o := rfl
@[simp] theorem State.emit_overlay (v : Byte) :
    (s.overlay g o).emit v = (s.emit v).overlay g o := by
  simp [State.emit, State.overlay]

/-- FL is overwritten alike where `g` keeps the byte written. -/
theorem State.setFl_overlay {v : Byte} (hv : g v = v) :
    (s.overlay g o).setFl v = (s.setFl v).overlay g o := by
  simp [State.setFl, State.overlay, hv]

/-! ### The primitives commute with `overlay` -/

@[simp] theorem nextPC_overlay (n : Nat) : nextPC n (s.overlay g o) = nextPC n s := rfl

@[simp] theorem advance_overlay (n : Nat) :
    advance n (s.overlay g o) = State.overlay g o <$> advance n s := by
  simp [advance]

@[simp] theorem spDec_overlay : spDec (s.overlay g o) = State.overlay g o <$> spDec s := by
  rcases spDec_cases s with ⟨hs, e⟩ | ⟨hs, e⟩ <;> rw [e]
  · exact spDec_ok hs
  · exact spDec_error hs

@[simp] theorem spInc_overlay : spInc (s.overlay g o) = State.overlay g o <$> spInc s := by
  rcases spInc_cases s with ⟨hs, e⟩ | ⟨hs, e⟩ <;> rw [e]
  · exact spInc_ok hs
  · exact spInc_error hs

theorem branch_overlay (taken : Bool) (r : RegIndex) :
    branch taken r (s.overlay g o) = State.overlay g o <$> branch taken r s := by
  cases taken with
  | true => rfl
  | false => exact advance_overlay g o s 2

end Overlay

/-! ### Instructions and steps -/

section
variable {g : Byte → Byte} {o : List Byte} {s t : State}

/-- A body that commutes with `overlay` makes the end of the step commute with it, faults included. -/
theorem complete_overlay {r r' : Except Fault State} (h : complete s r = .next t)
    (hr : r' = State.overlay g o <$> r) : complete (s.overlay g o) r' = .next (t.overlay g o) := by
  subst hr
  rcases complete_next h with rfl | ⟨f, rfl, rfl⟩ <;> rfl

/-- With other flags and another log before it an instruction does the same, as long as CMP finds the
byte it writes kept, and JEQ and JNE the Equal bit. -/
theorem exec_overlay {i : Instr} (h : exec i s = .next t)
    (hcmp : i.mnemonic = .CMP → ∀ v, g v = v)
    (hjump : i.mnemonic = .JEQ ∨ i.mnemonic = .JNE → equalFlag (g s.fl) = equalFlag s.fl) :
    exec i (s.overlay g o) = .next (t.overlay g o) := by
  cases i with
  | hlt => exact complete_overlay (s := s) (r := .ok (s.setStatus .halted)) h rfl
  | ldi a b => exact complete_overlay h (by simp)
  | prn a => exact complete_overlay h (by simp)
  | mul a b => exact complete_overlay h (by simp [aluStep, aluUnit_mul, State.writeAlu])
  | add a b => exact complete_overlay h (by simp [aluStep, aluUnit_add, State.writeAlu])
  | cmp a b =>
    exact complete_overlay h
      (by simp [aluStep, aluUnit_cmp, State.writeAlu, State.setFl_overlay, hcmp rfl])
  | push a => exact complete_overlay h (by simp)
  | pop a => exact complete_overlay h (by simp)
  | call a => exact complete_overlay h (by simp)
  | ret => exact complete_overlay h (by simp)
  | jmp a => exact complete_overlay h (by simp)
  | jeq a => exact complete_overlay h (by simp [hjump (.inl rfl), branch_overlay])
  | jne a => exact complete_overlay h (by simp [hjump (.inr rfl), branch_overlay])

/-- A step with the bytes `o` before the output does the same and keeps them there. -/
theorem step_prependOut (h : step s = .next t) :
    step (s.overlay id o) = .next (t.overlay id o) := by
  rcases step_cases s with ⟨hr, e⟩ | ⟨hr, hpc, e⟩ | ⟨hr, hpc, hop, e⟩ | ⟨hr, hpc, i, hd, e⟩ <;>
    rw [e] at h
  case inr.inr.inr =>
    rw [step_running (s := s.overlay id o) hr, cycle_decoded (s := s.overlay id o) hpc hd]
    exact exec_overlay h (fun _ _ => rfl) (fun _ => rfl)
  all_goals cases h
  · exact step_idle hr
  · exact (step_running (s := s.overlay id o) hr).trans (cycle_fetchFault hpc)
  · exact (step_running (s := s.overlay id o) hr).trans (cycle_noOpcode hpc hop)

end

/-- No completing instruction but PRN appends to the output, and PRN appends one byte (R36). -/
theorem Completed.out_eq {i : Instr} {s t : State} (h : Completed i s t) :
    (i.mnemonic ≠ .PRN → t.out = s.out) ∧
      (i.mnemonic = .PRN → ∃ v, t.out = s.out ++ [v]) := by
  cases h with
  | prn r ha hp => exact ⟨fun hi => absurd rfl hi, fun _ => ⟨s.reg r, rfl⟩⟩
  | _ => exact ⟨fun _ => rfl, nofun⟩

/-- Settles O38: an instruction commutes with changing FL (`exec_overlay`), and a completing CMP writes
the same flags over any FL. -/
theorem flagsAreCmpsAlone : Obligations.FlagsAreCmpsAlone := by
  intro i s t f h
  refine ⟨fun hi => ?_, ?_, fun hc he hn => ?_, fun hj hbit => ?_⟩
  · rcases exec_inv h with hc | ⟨e, -, rfl⟩
    · exact hc.fl_eq hi
    · rfl
  · rintro a b rfl ha hb hp
    have completes (u : State) (hu : u.pc.toNat ≤ 252) :=
      exec_of_completed (Completed.cmp (s := u) ⟨a.toNat, ha⟩ ⟨b.toNat, hb⟩ rfl rfl (by omega))
    rw [← h, completes s hp, completes { s with fl := f } hp]
    rfl
  · exact exec_overlay (g := fun _ => f) (o := []) h (fun h' => absurd h' hc)
      fun h' => absurd h' (not_or.2 ⟨he, hn⟩)
  · exact exec_overlay (g := fun _ => f) (o := []) h (fun h' => by simp [h'] at hj) fun _ => hbit

/-- Settles O39: only PRN's completion appends, and a step commutes with putting bytes before the
output (`step_prependOut`). -/
theorem outputIsOnlyAppended : Obligations.OutputIsOnlyAppended := by
  refine ⟨rfl, fun i s t h => ?_, fun s t o h => ?_, fun v => rfl⟩
  · rcases exec_inv h with hc | ⟨f, -, rfl⟩
    · exact ⟨hc.out_eq.1, fun hi => .inr (hc.out_eq.2 hi)⟩
    · exact ⟨fun _ => rfl, fun _ => .inl rfl⟩
  · simpa [State.overlay] using step_prependOut (o := o) h

end Sys2Proof.Machine
end

section
/-! PROOFS. Registers and the host's transactions: which registers an instruction writes (Table S1), the
register check (R22, R94), and the ports (R42, R43, R46). -/

namespace Sys2Proof.Machine

/-! ### Registers -/

/-- A completing instruction leaves every register outside Table S1's "writes" column. -/
theorem Completed.reg_eq {i : Instr} {s t : State} (h : Completed i s t) {q : RegIndex}
    (hq : q.val ∉ writtenRegs i) : t.reg q = s.reg q := by
  have ne_of_val {r : RegIndex} {n : Nat} (hr : n = r.val) (hn : q.val ≠ n) : q ≠ r :=
    fun e => hn (by rw [e, hr])
  have ne_spIndex (hn : q.val ≠ 7) : q ≠ Config.spIndex := ne_of_val rfl hn
  cases h with
  | ldi r ha hp => simp [ne_of_val ha (by simpa [writtenRegs] using hq)]
  | mul r p ha hb hp => simp [ne_of_val ha (by simpa [writtenRegs] using hq)]
  | add r p ha hb hp => simp [ne_of_val ha (by simpa [writtenRegs] using hq)]
  | push r ha hs hp => simp [ne_spIndex (by simpa [writtenRegs] using hq)]
  | pop r ha hs hp =>
    obtain ⟨hqa, hq7⟩ : q.val ≠ _ ∧ q.val ≠ 7 := by simpa [writtenRegs] using hq
    simp [ne_of_val ha hqa, ne_spIndex hq7]
  | call r ha hs hp => simp [ne_spIndex (by simpa [writtenRegs] using hq)]
  | ret hs => simp [ne_spIndex (by simpa [writtenRegs] using hq)]
  | _ => rfl

theorem regByteValid_eq_false {a : Byte} : regByteValid a = false ↔ 8 ≤ a.toNat := by
  simp [regByteValid]

/-- The body of an ill-formed instruction with one register byte ends at the check of that byte. -/
theorem checkReg_bind_of_invalid {a : Byte} (h : regByteValid a = false)
    (k : RegIndex → Except Fault State) :
    ∃ b ∈ [a], 8 ≤ b.toNat ∧ (checkReg a >>= k) = .error (.invalidRegister b) := by
  have h8 := regByteValid_eq_false.1 h
  exact ⟨a, by simp, h8, by rw [checkReg_error h8, error_bind]⟩

/-- The body of an ill-formed instruction with two register bytes ends at the check of one of them. -/
theorem checkRegs_bind_of_invalid {a b : Byte} (h : (regByteValid a && regByteValid b) = false)
    (k : RegIndex × RegIndex → Except Fault State) :
    ∃ c ∈ [a, b], 8 ≤ c.toNat ∧ (checkRegs a b >>= k) = .error (.invalidRegister c) := by
  by_cases ha : 8 ≤ a.toNat
  · refine ⟨a, by simp, ha, ?_⟩
    rw [checkRegs_eq_error.2 (.inl ⟨ha, rfl⟩), error_bind]
  · have hb : 8 ≤ b.toNat := by
      rcases Bool.and_eq_false_iff.1 h with h | h
      · exact absurd (regByteValid_eq_false.1 h) ha
      · exact regByteValid_eq_false.1 h
    refine ⟨b, by simp, hb, ?_⟩
    rw [checkRegs_eq_error.2 (.inr ⟨by omega, hb, rfl⟩), error_bind]

/-- A body that ends at an invalid register byte makes the instruction fault with it. -/
theorem complete_invalidRegister {s : State} {bs : List Byte} {r : Except Fault State}
    (h : ∃ b ∈ bs, 8 ≤ b.toNat ∧ r = .error (.invalidRegister b)) :
    ∃ b ∈ bs, 8 ≤ b.toNat ∧ complete s r = .next (s.enterFault (.invalidRegister b)) := by
  obtain ⟨b, hb, h8, rfl⟩ := h
  exact ⟨b, hb, h8, rfl⟩

/-- An ill-formed instruction faults with InvalidRegister of one of its register bytes (R22, R94). -/
theorem exec_of_illFormed {i : Instr} (s : State) (h : i.wellFormed = false) :
    ∃ b ∈ registerBytes i, 8 ≤ b.toNat ∧
      exec i s = .next (s.enterFault (.invalidRegister b)) := by
  cases i with
  | hlt => cases h
  | ret => cases h
  | mul a b => exact complete_invalidRegister (checkRegs_bind_of_invalid h _)
  | add a b => exact complete_invalidRegister (checkRegs_bind_of_invalid h _)
  | cmp a b => exact complete_invalidRegister (checkRegs_bind_of_invalid h _)
  | _ => exact complete_invalidRegister (checkReg_bind_of_invalid h _)

/-- Settles O17: the check of one byte, and the fault of an instruction that holds an invalid one. -/
theorem registerIndexBelowEightOnly : Obligations.RegisterIndexBelowEightOnly := by
  refine ⟨fun a => ⟨fun h => ⟨_, checkReg_ok h, rfl⟩, checkReg_error⟩, fun i s h => ?_⟩
  obtain ⟨b, hb, h8, he⟩ := exec_of_illFormed s h
  exact ⟨_, _, b, he, rfl, rfl, hb, h8, rfl⟩

/-- Settles O35: completions write Table S1's registers only, and a fault writes none. -/
theorem registerFrame : Obligations.RegisterFrame := by
  intro i s t q h hq
  rcases exec_inv h with hc | ⟨f, -, rfl⟩
  · exact hc.reg_eq hq
  · rfl

/-- Settles O16: by the read of a register after a write to it and to another. -/
theorem registerReadsWhatWasWritten : Obligations.RegisterReadsWhatWasWritten := by
  intro s r v
  exact ⟨s.reg_setReg_self r v, fun q hq => s.reg_setReg_ne v hq⟩

/-! ### The ports -/

/-- Outside Ready each host write is refused and changes nothing (R43, I17). -/
theorem port_write_refused {s : State} (h : s.status ≠ .ready) {c : PortCmd}
    (hreset : c ≠ .reset) (hrun : c ≠ .run) : port c s = (.refused, s) := by
  cases c with
  | reset => exact absurd rfl hreset
  | run => exact absurd rfl hrun
  | _ => exact readyOnly_refused h _

theorem port_writeMem {s : State} (h : s.status = .ready) (addr : Int) (v : Byte) :
    port (.writeMem addr v) s = hostWriteMem addr v s := readyOnly_ready h _

theorem port_writeReg {s : State} (h : s.status = .ready) (r : RegIndex) (v : Byte) :
    port (.writeReg r v) s = (.ok, s.setReg r v) := readyOnly_ready h _

theorem port_writeFl_legal {s : State} (h : s.status = .ready) {v : Byte} (hv : v ∈ legalFlags) :
    port (.writeFl v) s = (.ok, s.setFl v) :=
  (readyOnly_ready h _).trans (if_pos hv)

theorem port_writeFl_illegal {s : State} (h : s.status = .ready) {v : Byte}
    (hv : v ∉ legalFlags) : port (.writeFl v) s = (.refused, s) :=
  (readyOnly_ready h _).trans (if_neg hv)

theorem port_writePc {s : State} (h : s.status = .ready) (v : Byte) :
    port (.writePc v) s = (.ok, s.setPc v) := readyOnly_ready h _

/-- Settles O5: refusal outside Ready, and in Ready one clause for each kind of write. -/
theorem hostWritesOnlyInReady : Obligations.HostWritesOnlyInReady := by
  intro s addr r v
  constructor
  · intro h
    exact ⟨port_write_refused h nofun nofun, port_write_refused h nofun nofun,
      port_write_refused h nofun nofun, port_write_refused h nofun nofun⟩
  · intro h
    refine ⟨fun h0 h1 => ?_, fun ha => ?_, ?_, fun hv => ?_, fun h0 h1 h2 h4 => ?_,
      port_writePc h v⟩
    · refine ⟨_, (port_writeMem h addr v).trans (hostWriteMem_valid v s h0 h1), by simp,
        fun b hb => by simp [hb], fun _ _ => rfl, rfl, rfl, rfl, rfl, rfl⟩
    · exact (port_writeMem h addr v).trans (hostWriteMem_invalid v s ha)
    · exact ⟨_, port_writeReg h r v, s.reg_setReg_self r v,
        fun q hq => s.reg_setReg_ne v (by simpa using hq), fun _ => rfl, rfl, rfl, rfl, rfl, rfl⟩
    · exact port_writeFl_legal h (mem_legalFlags.2 hv)
    · exact port_writeFl_illegal h (by simp [mem_legalFlags, h0, h1, h2, h4])

/-- Settles O3: by the two branches of `run`. -/
theorem runStartsOnlyFromReady : Obligations.RunStartsOnlyFromReady := by
  intro s
  exact ⟨fun h => congrArg (PortReply.ok, ·) (if_pos h),
    fun h => congrArg (PortReply.ok, ·) (if_neg h)⟩

theorem traceRecord_running {s : State} (h : s.status = .running) (hpc : s.pc.toNat ≤ 253) :
    traceRecord s = some ⟨s.pc, s.byteAt s.pc.toNat, s.byteAt (s.pc.toNat + 1),
      s.byteAt (s.pc.toNat + 2), s.x⟩ := by
  simp [traceRecord, h, fetch_ok hpc]

/-- At 254 and 255 there is no record in any status (R92, D7). -/
theorem traceRecord_fetchFault {s : State} (hpc : 254 ≤ s.pc.toNat) : traceRecord s = none := by
  cases h : s.status <;> simp [traceRecord, h, fetch_error hpc]

/-- Settles O46: by whether the three bytes can be fetched. -/
theorem traceRecordsTheFetch : Obligations.TraceRecordsTheFetch := by
  intro s
  exact ⟨traceRecord_running, traceRecord_fetchFault⟩

end Sys2Proof.Machine
end

section
/-! PROOFS. Memory: bounds-checked accesses (R51 to R53), which bytes an instruction, a step and a
transaction leave alone (R54, R65), and that the rest of a step's end does not depend on memory beyond
the bytes it reads. -/

namespace Sys2Proof.Machine

/-- Settles O19: one rule of the memory accesses for each range of the address. -/
theorem memoryAccessesAreBoundsChecked : Obligations.MemoryAccessesAreBoundsChecked := by
  intro addr v s
  refine ⟨fun h0 h255 => ?_, fun h => ⟨memRead_invalid s h, memWrite_invalid v s h⟩⟩
  refine ⟨memRead_valid s h0 (by omega), _, memWrite_valid v s h0 (by omega), by simp,
    fun b hb => by simp [hb], fun _ _ => rfl, rfl, rfl, rfl, rfl, rfl⟩

/-! ### Which bytes an instruction and a step leave alone -/

/-- The instructions that store are PUSH and CALL, at the SP that `SPDec` leaves (R54, R151). -/
theorem storeAddress_eq_some {i : Instr} {s : State} {addr : Nat}
    (h : storeAddress i s = some addr) :
    (i.mnemonic = .PUSH ∨ i.mnemonic = .CALL) ∧ ∃ s1, spDec s = .ok s1 ∧ addr = s1.sp.toNat := by
  have spDec_of_decrementedSp (hd : decrementedSp s = some addr) :
      ∃ s1, spDec s = .ok s1 ∧ addr = s1.sp.toNat := by
    unfold decrementedSp at hd
    split at hd
    · exact ⟨_, ‹_›, (Option.some.inj hd).symm⟩
    · cases hd
  cases i with
  | push a => exact ⟨.inl rfl, spDec_of_decrementedSp h⟩
  | call a => exact ⟨.inr rfl, spDec_of_decrementedSp h⟩
  | _ => cases h

/-- Settles O36: a completing instruction stores at its store address only, and a faulting one keeps
all of memory (R97). -/
theorem memoryFrame : Obligations.MemoryFrame := by
  intro i s t addr h hframe
  rcases exec_inv h with hc | ⟨f, -, rfl⟩
  · refine hc.byteAt fun ha => ?_
    obtain ⟨hi, s1, hs1, rfl⟩ := storeAddress_eq_some ha
    exact hframe hi s1 hs1 rfl
  · rfl

/-- A step leaves every byte it does not store at, in every status and with or without a fault. -/
theorem step_byteAt {s t : State} {addr : Nat} (h : step s = .next t) (ha : ¬StoresAt s t addr) :
    t.byteAt addr = s.byteAt addr := by
  rcases step_cases s with ⟨-, e⟩ | ⟨-, -, e⟩ | ⟨-, -, -, e⟩ | ⟨hr, -, i, hi, e⟩ <;>
    rw [e] at h
  case inr.inr.inr =>
    rcases exec_inv h with hc | ⟨f, -, rfl⟩
    · exact hc.byteAt fun hstore => ha ⟨hc.status_ne_faulted (by simp [hr]), i, hi, hstore⟩
    · rfl
  all_goals cases h; rfl

/-- Of the completing instructions HLT alone changes the status (R90). -/
theorem Completed.status_eq {i : Instr} {s t : State} (h : Completed i s t) (hi : i ≠ .hlt) :
    t.status = s.status := by
  cases h with
  | hlt => exact absurd rfl hi
  | _ => rfl

/-- An instruction that ends a run stores nothing (R65). -/
theorem Completed.keepsMemory_of_ended {i : Instr} {s t : State} (h : Completed i s t)
    (hr : s.status = .running) (ht : t.ended) : s.KeepsMemory t := by
  by_cases hi : i = .hlt
  · subst hi
    exact fun addr => h.byteAt nofun
  · simp [State.ended, h.status_eq hi, hr] at ht

/-- A step that ends Halted or Faulted keeps all of memory (R65). -/
theorem step_keepsMemory_of_ended {s t : State} (h : step s = .next t) (ht : t.ended) :
    s.KeepsMemory t := by
  rcases step_cases s with ⟨-, e⟩ | ⟨-, -, e⟩ | ⟨-, -, -, e⟩ | ⟨hr, -, i, -, e⟩ <;>
    rw [e] at h
  case inr.inr.inr =>
    rcases exec_inv h with hc | ⟨f, -, rfl⟩
    · exact hc.keepsMemory_of_ended hr ht
    · exact fun _ => rfl
  all_goals cases h; exact fun _ => rfl

/-- Every transaction but `reset` and the write of a cell keeps all of memory. -/
theorem port_keepsMemory {c : PortCmd} (s : State) (hreset : c ≠ .reset)
    (hwrite : ∀ addr v, c ≠ .writeMem addr v) : s.KeepsMemory (port c s).2 := by
  have keeps : s.KeepsMemory s := fun _ => rfl
  cases c with
  | reset => exact absurd rfl hreset
  | run => simp only [port]; split <;> exact fun _ => rfl
  | writeMem addr v => exact absurd rfl (hwrite addr v)
  | writeReg r v => exact readyOnly_keeps keeps fun _ _ => rfl
  | writeFl v => exact readyOnly_keeps keeps fun _ => by split <;> exact fun _ => rfl
  | writePc v => exact readyOnly_keeps keeps fun _ _ => rfl

/-- Settles O44: a byte that a step changed is one it stored at, and a byte that a transaction changed
was reset or written in Ready. -/
theorem memorySurvivesTheEndOfARun : Obligations.MemorySurvivesTheEndOfARun := by
  refine ⟨fun s t => step_keepsMemory_of_ended, fun s t addr h hne => ?_, fun s c addr hne => ?_⟩
  · have hstore : StoresAt s t addr := not_not.1 fun hn => hne (step_byteAt h hn)
    obtain ⟨-, i, hi, ha⟩ := hstore
    exact ⟨i, hi, (storeAddress_eq_some ha).1⟩
  · by_cases hreset : c = .reset
    · exact .inl hreset
    by_cases hwrite : ∃ k v, c = .writeMem k v
    · refine .inr ⟨?_, hwrite⟩
      obtain ⟨k, v, rfl⟩ := hwrite
      by_contra hs
      exact hne (by rw [port_write_refused hs hreset nofun])
    · push Not at hwrite
      exact absurd (port_keepsMemory s hreset hwrite addr) hne

/-! ### A state with another memory -/

/-- The state with its memory contents replaced. -/
def State.replaceMem (m : Memory) (s : State) : State := { s with mem := m }

/-- States that agree in all but memory are equal once their memories are. -/
theorem State.sameButMemory_of_replaceMem {m : Memory} {t u : State}
    (h : u.replaceMem m = t.replaceMem m) : t.SameButMemory u := by
  simp only [State.replaceMem, State.mk.injEq] at h
  obtain ⟨hx, hfl, hpc, hstatus, hfault, -, hout⟩ := h
  exact ⟨hstatus, hx, hfl, hpc, hfault, hout⟩

section ReplaceMem

variable (m : Memory) (s : State)

/-! The accessors and updates commute with `replaceMem`, and a store is one. -/

@[simp] theorem State.fl_replaceMem : (s.replaceMem m).fl = s.fl := rfl
@[simp] theorem State.reg_replaceMem (q : RegIndex) : (s.replaceMem m).reg q = s.reg q := rfl
@[simp] theorem State.sp_replaceMem : (s.replaceMem m).sp = s.sp := rfl
@[simp] theorem State.byteAt_replaceMem (a : Nat) : (s.replaceMem m).byteAt a = m.get a := rfl

@[simp] theorem State.setReg_replaceMem (r : RegIndex) (v : Byte) :
    (s.replaceMem m).setReg r v = (s.setReg r v).replaceMem m := rfl
@[simp] theorem State.setFl_replaceMem (v : Byte) :
    (s.replaceMem m).setFl v = (s.setFl v).replaceMem m := rfl
@[simp] theorem State.setPc_replaceMem (v : Byte) :
    (s.replaceMem m).setPc v = (s.setPc v).replaceMem m := rfl
@[simp] theorem State.emit_replaceMem (v : Byte) :
    (s.replaceMem m).emit v = (s.emit v).replaceMem m := rfl

@[simp] theorem State.replaceMem_replaceMem (n : Memory) :
    (s.replaceMem n).replaceMem m = s.replaceMem m := rfl

theorem State.setByte_eq_replaceMem (a : Nat) (v : Byte) :
    s.setByte a v = s.replaceMem (s.mem.set a v) := rfl

/-! The primitives that touch no memory commute with `replaceMem`. -/

@[simp] theorem nextPC_replaceMem (n : Nat) : nextPC n (s.replaceMem m) = nextPC n s := rfl

@[simp] theorem advance_replaceMem (n : Nat) :
    advance n (s.replaceMem m) = State.replaceMem m <$> advance n s := by
  simp [advance]

@[simp] theorem spDec_replaceMem : spDec (s.replaceMem m) = State.replaceMem m <$> spDec s := by
  rcases spDec_cases s with ⟨hs, e⟩ | ⟨hs, e⟩ <;> rw [e]
  · exact spDec_ok hs
  · exact spDec_error hs

@[simp] theorem spInc_replaceMem : spInc (s.replaceMem m) = State.replaceMem m <$> spInc s := by
  rcases spInc_cases s with ⟨hs, e⟩ | ⟨hs, e⟩ <;> rw [e]
  · exact spInc_ok hs
  · exact spInc_error hs

theorem branch_replaceMem (taken : Bool) (r : RegIndex) :
    branch taken r (s.replaceMem m) = State.replaceMem m <$> branch taken r s := by
  cases taken with
  | true => rfl
  | false => exact advance_replaceMem m s 2

end ReplaceMem

/-! ### What a step's end depends on -/

section
variable {i : Instr} {m : Memory} {s t u : State}

/-- The bytes a step from `s` reads are the same in the memory `m`: the three at pc and, for POP and RET,
the one at SP. -/
structure State.AgreesOnReads (s : State) (m : Memory) : Prop where
  fetched : ∀ k, k ≤ 2 → m.get (s.pc.toNat + k) = s.byteAt (s.pc.toNat + k)
  popped : ∀ i, s.instrAtPc = .ok i → i.mnemonic = .POP ∨ i.mnemonic = .RET →
    m.get s.sp.toNat = s.byteAt s.sp.toNat

/-- A fault is recorded alike on another memory (R98). -/
theorem enterFault_sameButMemory (f : Fault) :
    (s.enterFault f).SameButMemory ((s.replaceMem m).enterFault f) :=
  ⟨rfl, rfl, rfl, rfl, rfl, rfl⟩

/-- Bodies that agree once their memories are replaced by one end their steps alike, faults included. -/
theorem complete_sameButMemory {r r' : Except Fault State} (ht : complete s r = .next t)
    (hu : complete (s.replaceMem m) r' = .next u)
    (h : State.replaceMem [] <$> r' = State.replaceMem [] <$> r) : t.SameButMemory u := by
  cases r with
  | ok t' =>
    cases r' with
    | ok u' => cases ht; cases hu; exact State.sameButMemory_of_replaceMem (Except.ok.inj h)
    | error f' => cases h
  | error f =>
    cases r' with
    | ok u' => cases h
    | error f' => cases h; cases ht; cases hu; exact enterFault_sameButMemory f

/-- Outside memory an instruction ends alike on another memory, if POP and RET find the same byte at
SP: the primitives commute with replacing the memory, and a store only replaces it again. -/
theorem exec_sameButMemory (ht : exec i s = .next t) (hu : exec i (s.replaceMem m) = .next u)
    (hm : i.mnemonic = .POP ∨ i.mnemonic = .RET → m.get s.sp.toNat = s.byteAt s.sp.toNat) :
    t.SameButMemory u := by
  cases i with
  | hlt => cases ht; cases hu; exact ⟨rfl, rfl, rfl, rfl, rfl, rfl⟩
  | ldi a b => exact complete_sameButMemory ht hu (by simp)
  | prn a => exact complete_sameButMemory ht hu (by simp)
  | mul a b => exact complete_sameButMemory ht hu (by simp [aluStep, aluUnit_mul, State.writeAlu])
  | add a b => exact complete_sameButMemory ht hu (by simp [aluStep, aluUnit_add, State.writeAlu])
  | cmp a b => exact complete_sameButMemory ht hu (by simp [aluStep, aluUnit_cmp, State.writeAlu])
  | push a => exact complete_sameButMemory ht hu (by simp [State.setByte_eq_replaceMem])
  | pop a => exact complete_sameButMemory ht hu (by simp [hm (.inl rfl)])
  | call a => exact complete_sameButMemory ht hu (by simp [State.setByte_eq_replaceMem])
  | ret => exact complete_sameButMemory ht hu (by simp [hm (.inr rfl)])
  | jmp a => exact complete_sameButMemory ht hu (by simp)
  | jeq a => exact complete_sameButMemory ht hu (by simp [branch_replaceMem])
  | jne a => exact complete_sameButMemory ht hu (by simp [branch_replaceMem])

/-- Every execution ends in a next state (log 3). -/
theorem exec_isNext (i : Instr) (s : State) : ∃ t, exec i s = .next t := by
  obtain ⟨r, h⟩ := exec_isComplete i s
  rw [h]; exact complete_isNext s r

/-- With the same bytes at pc, pc + 1 and pc + 2 the same instruction stands there. -/
theorem State.AgreesOnReads.instrAtPc_eq (hm : s.AgreesOnReads m) :
    (s.replaceMem m).instrAtPc = s.instrAtPc := by
  have h0 : m.get s.pc.toNat = s.byteAt s.pc.toNat := hm.fetched 0 (by omega)
  have h1 := hm.fetched 1 (by omega)
  have h2 := hm.fetched 2 (by omega)
  show decode (m.get s.pc.toNat) (m.get (s.pc.toNat + 1)) (m.get (s.pc.toNat + 2)) = _
  rw [h0, h1, h2]; rfl

/-- A Running step whose bytes decode to `i` runs `exec i`. -/
theorem step_eq_exec (hr : s.status = .running) (hpc : s.pc.toNat ≤ 253)
    (hi : s.instrAtPc = .ok i) : step s = exec i s :=
  (step_running hr).trans (cycle_decoded hpc hi)

/-- Outside memory a Running step ends alike on another memory that agrees on the bytes it reads. -/
theorem step_sameButMemory (hr : s.status = .running) (h : step s = .next t)
    (hm : s.AgreesOnReads m) : ∃ u, step (s.replaceMem m) = .next u ∧ t.SameButMemory u := by
  have hr' : (s.replaceMem m).status = .running := hr
  rcases step_cases s with ⟨hn, -⟩ | ⟨-, hpc, e⟩ | ⟨-, hpc, hop, e⟩ | ⟨-, hpc, i, hi, e⟩
  · exact absurd hr hn
  · cases e.symm.trans h
    exact ⟨_, (step_running hr').trans (cycle_fetchFault hpc), enterFault_sameButMemory _⟩
  · cases e.symm.trans h
    have hop' := cycle_noOpcode (s := s.replaceMem m) hpc
    rw [show (s.replaceMem m).byteAt (s.replaceMem m).pc.toNat = s.byteAt s.pc.toNat from
      hm.fetched 0 (by omega)] at hop'
    exact ⟨_, (step_running hr').trans (hop' hop), enterFault_sameButMemory _⟩
  · obtain ⟨u, hu⟩ := exec_isNext i (s.replaceMem m)
    have hi' := hm.instrAtPc_eq.trans hi
    exact ⟨u, (step_eq_exec hr' hpc hi').trans hu,
      exec_sameButMemory (e.symm.trans h) hu (hm.popped i hi)⟩

/-- A Running step that stores ran an instruction to completion, which stores there. -/
theorem StoresAt.completed {addr : Nat} (hs : StoresAt s t addr) (hr : s.status = .running)
    (h : step s = .next t) :
    ∃ i, s.pc.toNat ≤ 253 ∧ s.instrAtPc = .ok i ∧ Completed i s t ∧
      storeAddress i s = some addr := by
  obtain ⟨hne, i, hi, ha⟩ := hs
  have hpc : s.pc.toNat ≤ 253 := by
    by_contra hpc
    have hfault := (step_running hr).trans (cycle_fetchFault (s := s) (by omega))
    cases hfault.symm.trans h
    exact hne rfl
  rcases exec_inv ((step_eq_exec hr hpc hi).symm.trans h) with hc | ⟨f, -, rfl⟩
  · exact ⟨i, hpc, hi, hc, ha⟩
  · exact absurd rfl hne

/-- The byte a step stores is the same on another memory. -/
theorem StoresAt.byteAt_eq {addr : Nat} (hs : StoresAt s t addr) (hr : s.status = .running)
    (h : step s = .next t) (hu : step (s.replaceMem m) = .next u)
    (hm : s.AgreesOnReads m) : u.byteAt addr = t.byteAt addr := by
  obtain ⟨i, hpc, hi, hc, ha⟩ := hs.completed hr h
  obtain ⟨u', hc', -, hbyte⟩ := hc.onMemory m (hm.popped i hi)
  have hi' := hm.instrAtPc_eq.trans hi
  have hu' : step (s.replaceMem m) = .next u' :=
    (step_eq_exec (s := s.replaceMem m) hr hpc hi').trans (exec_of_completed hc')
  cases hu'.symm.trans hu
  exact hbyte addr ha

/-- A step that stores at an address on the other memory stores there on this one too. -/
theorem StoresAt.of_replaceMem {addr : Nat} (hs : StoresAt (s.replaceMem m) u addr)
    (hsame : t.SameButMemory u) (hm : s.AgreesOnReads m) : StoresAt s t addr := by
  obtain ⟨hne, i, hi, ha⟩ := hs
  exact ⟨hsame.status ▸ hne, i, hm.instrAtPc_eq.symm.trans hi,
    (storeAddress_mem i s m).symm.trans ha⟩

end

/-- Settles O37: outside memory the two steps end alike, they store the same byte at the same address,
and the other bytes are what they were (`step_byteAt`). -/
theorem stepReadsFourBytesAtMost : Obligations.StepReadsFourBytesAtMost := by
  intro s t m hr h hfetch hsp
  have hm : s.AgreesOnReads m := ⟨hfetch, hsp⟩
  obtain ⟨u, hu, hsame⟩ := step_sameButMemory hr h hm
  exact ⟨u, hu, hsame, fun addr => ⟨fun hs => hs.byteAt_eq hr h hu hm,
    fun hs => step_byteAt hu fun hs' => hs (hs'.of_replaceMem hsame hm)⟩⟩

end Sys2Proof.Machine
end

section
/-! PROOFS. The encoding: the decoder inverts the encoder (Tables E1 and E2, R70, R73), the opcode map
(R71, R77, R78), fetched bytes that are no operand (R76), and the image format (R84). -/

namespace Sys2Proof

/-! ### The opcode map -/

/-- The opcodes of Table E2 are distinct, so a byte's row is the one that holds it (R73). -/
theorem opcodeRow_eq_some {op : Byte} {row : OpcodeRow} :
    opcodeRow op = some row ↔ row ∈ opcodeMap ∧ row.opcode = op := by
  constructor
  · intro h
    exact ⟨List.mem_of_find?_eq_some h, by simpa using List.find?_some h⟩
  · rintro ⟨hrow, rfl⟩
    have distinct : ∀ r ∈ opcodeMap, opcodeRow r.opcode = some r := by decide
    exact distinct row hrow

theorem opcodeRow_eq_none {op : Byte} :
    opcodeRow op = none ↔ op ∉ opcodeMap.map OpcodeRow.opcode := by
  simp [opcodeRow]

/-- Every row's format has the length its opcode's bits 7:6 give (R71). -/
theorem length_of_opcodeRow {op : Byte} {row : OpcodeRow} (h : opcodeRow op = some row) :
    row.format.length = 1 + (op.extractLsb' 6 2).toNat := by
  obtain ⟨hrow, rfl⟩ := opcodeRow_eq_some.1 h
  have table : ∀ r ∈ opcodeMap, r.format.length = 1 + (r.opcode.extractLsb' 6 2).toNat := by decide
  exact table row hrow

theorem encodedAsItsRow (i : Instr) : Laws.EncodedAsItsRow.Statement i := by
  cases i with
  | hlt => exact Laws.EncodedAsItsRow.hlt
  | ldi a b => exact Laws.EncodedAsItsRow.ldi a b
  | prn a => exact Laws.EncodedAsItsRow.prn a
  | mul a b => exact Laws.EncodedAsItsRow.mul a b
  | add a b => exact Laws.EncodedAsItsRow.add a b
  | cmp a b => exact Laws.EncodedAsItsRow.cmp a b
  | push a => exact Laws.EncodedAsItsRow.push a
  | pop a => exact Laws.EncodedAsItsRow.pop a
  | call a => exact Laws.EncodedAsItsRow.call a
  | ret => exact Laws.EncodedAsItsRow.ret
  | jmp a => exact Laws.EncodedAsItsRow.jmp a
  | jeq a => exact Laws.EncodedAsItsRow.jeq a
  | jne a => exact Laws.EncodedAsItsRow.jne a

theorem Instr.length_pos (i : Instr) : 0 < i.length := by
  rw [Instr.length]
  cases i.format <;> decide

theorem length_encode (i : Instr) : (encode i).length = i.length := by
  obtain ⟨-, -, -, -, h⟩ := encodedAsItsRow i
  exact h

/-! ### The decoder and the encoder -/

theorem decode_eq_ok {op a b : Byte} {i : Instr} :
    decode op a b = .ok i ↔
      ∃ row, opcodeRow op = some row ∧ row.mnemonic.withOperands a b = i := by
  cases h : opcodeRow op <;> simp [decode, h]

/-- Whether a byte decodes depends on the opcode map alone, not on the bytes after it (R78). -/
theorem exists_decode_eq_ok {op a b : Byte} :
    (∃ i, decode op a b = .ok i) ↔ op ∈ opcodeMap.map OpcodeRow.opcode := by
  rw [← not_iff_not, ← opcodeRow_eq_none]
  rcases Machine.decode_cases op a b with ⟨hnone, hd⟩ | ⟨i, hd⟩
  · simp [hd, hnone]
  · obtain ⟨row, hrow, -⟩ := decode_eq_ok.1 hd
    simp [hd, hrow]

/-- A row's opcode and the operand bytes begin with the encoding of the row's instruction. -/
theorem encode_withOperands {row : OpcodeRow} (h : row ∈ opcodeMap) (a b : Byte) :
    encode (row.mnemonic.withOperands a b) <+: [row.opcode, a, b] := by
  have table : ∀ r ∈ opcodeMap, encode (r.mnemonic.withOperands a b) <+: [r.opcode, a, b] := by
    simp [opcodeMap, Mnemonic.withOperands, encode]
  exact table row h

/-- What follows an encoding, two bytes at least (R92), is not looked at. -/
theorem decodeBytes_encode (i : Instr) (p q : Byte) (rest : List Byte) :
    decodeBytes (encode i ++ p :: q :: rest) = .ok i := by
  cases i <;> rfl

theorem decodeBytes_of_encode_prefix {i : Instr} {bytes : List Byte} (h : encode i <+: bytes)
    (p q : Byte) : decodeBytes (bytes ++ [p, q]) = .ok i := by
  obtain ⟨rest, rfl⟩ := h
  rw [List.append_assoc]
  rcases rest with _ | ⟨x, _ | ⟨y, rest⟩⟩ <;> exact decodeBytes_encode i _ _ _

theorem decode_eq_ok_iff_encode_prefix {i : Instr} {op a b : Byte} :
    decode op a b = .ok i ↔ encode i <+: [op, a, b] := by
  constructor
  · intro h
    obtain ⟨row, hrow, rfl⟩ := decode_eq_ok.1 h
    obtain ⟨hmem, rfl⟩ := opcodeRow_eq_some.1 hrow
    exact encode_withOperands hmem a b
  · exact fun h => decodeBytes_of_encode_prefix h 0 0

/-- No encoding begins another's: decoding the longer one answers both instructions. -/
theorem eq_of_encode_prefix {i j : Instr} (h : encode i <+: encode j) : i = j :=
  Except.ok.inj ((decodeBytes_of_encode_prefix h 0 0).symm.trans (decodeBytes_encode j 0 0 []))

/-- The decoder looks at no byte past the length of the instruction it answers (R76). -/
theorem decode_congr {op a b a' b' : Byte} {i : Instr} (h : decode op a b = .ok i)
    (ha : 1 < i.length → a' = a) (hb : 2 < i.length → b' = b) : decode op a' b' = .ok i := by
  rw [decode_eq_ok_iff_encode_prefix, List.prefix_iff_eq_take, length_encode] at h ⊢
  rw [h]
  by_cases h1 : 1 < i.length
  · by_cases h2 : 2 < i.length
    · rw [ha h1, hb h2]
    · rw [ha h1, show i.length = 2 by omega]; rfl
  · have hpos : 0 < i.length := i.length_pos
    rw [show i.length = 1 by omega]; rfl

end Sys2Proof

namespace Sys2Proof.Machine

/-! ### The statements about the decoder -/

/-- Settles O12: what decodes is a row's instruction, whose encoding those bytes begin with; and any
bytes that begin with an encoding decode to its instruction. -/
theorem decodeAgreesWithEncode : Obligations.DecodeAgreesWithEncode := by
  exact ⟨decodeBytes_encode, fun _ _ _ _ => decode_eq_ok_iff_encode_prefix,
    fun _ _ => eq_of_encode_prefix⟩

/-- Settles O13: the row of the instruction's opcode gives its length, one more than its operands. -/
theorem operandCountIsTheTopTwoBits : Obligations.OperandCountIsTheTopTwoBits := by
  refine ⟨fun i => ?_, fun op row => length_of_opcodeRow⟩
  obtain ⟨op, operands, he, hrow, hlen⟩ := encodedAsItsRow i
  have hbits : i.length = 1 + (op.extractLsb' 6 2).toNat := length_of_opcodeRow hrow
  rw [he, List.length_cons] at hlen
  exact ⟨op, operands, he, by omega, hbits⟩

/-- Settles O14: the decoder evaluates to the instruction on each word. -/
theorem tableWordsDecode : Obligations.TableWordsDecode := by
  exact ⟨rfl, rfl, rfl, rfl, rfl, rfl, rfl, rfl, rfl, rfl, rfl, rfl, rfl⟩

/-- Settles O10: the valid bytes are the opcodes of the map, and a byte without a row faults. -/
theorem illegalOpcodesFault : Obligations.IllegalOpcodesFault := by
  unfold Obligations.IllegalOpcodesFault
  intro valid
  have hvalid : valid = opcodeMap.map OpcodeRow.opcode := rfl
  refine ⟨fun op a b => hvalid ▸ exists_decode_eq_ok, by decide +kernel, fun s hr hpc hop => ?_⟩
  have hnone : opcodeRow (s.byteAt s.pc.toNat) = none := opcodeRow_eq_none.2 (hvalid ▸ hop)
  exact ⟨_, _, (step_running hr).trans (cycle_noOpcode hpc hnone), rfl, rfl, rfl⟩

/-! ### Images -/

/-- Settles O53: an image of lines in R84's form parses to their bytes, a malformed line to none. -/
theorem imageLoadsItsLinesInFileOrder : Obligations.ImageLoadsItsLinesInFileOrder := by
  refine ⟨fun rows s => ?_, fun lines line s hmem hbad => ?_⟩
  · rw [loadImage, parseImage_text]
  · rw [loadImage, parseImage_malformed hmem (hbad _)]

/-! ### Bytes that are no operand -/

section
variable {i : Instr} {m : Memory} {s t u : State} {k : Nat} {v : Byte}

/-- A byte past the length of the instruction at pc is no part of it (R76). -/
theorem State.instrAtPc_setByte (h : s.instrAtPc = .ok i) (hk : s.pc.toNat + i.length ≤ k) :
    (s.setByte k v).instrAtPc = .ok i := by
  have hpos : 0 < i.length := i.length_pos
  have hop : (s.setByte k v).byteAt s.pc.toNat = s.byteAt s.pc.toNat := by
    rw [State.byteAt_setByte, if_neg (by omega)]
  unfold State.instrAtPc at h ⊢
  rw [State.setByte_pc, hop]
  refine decode_congr h (fun h1 => ?_) (fun h2 => ?_) <;>
    rw [State.byteAt_setByte, if_neg (by omega)]

/-- Where the step of a known instruction stores: at its store address, if it does not fault. -/
theorem storesAt_iff {addr : Nat} (hi : s.instrAtPc = .ok i) :
    StoresAt s t addr ↔ t.status ≠ .faulted ∧ storeAddress i s = some addr := by
  simp [StoresAt, hi]

/-- A byte that an instruction stores is the same on another memory, if POP and RET find the same byte
at SP. -/
theorem exec_storedByte_eq {addr : Nat} (ht : exec i s = .next t)
    (hu : exec i (s.replaceMem m) = .next u)
    (hm : i.mnemonic = .POP ∨ i.mnemonic = .RET → m.get s.sp.toNat = s.byteAt s.sp.toNat)
    (hne : t.status ≠ .faulted) (ha : storeAddress i s = some addr) :
    u.byteAt addr = t.byteAt addr := by
  rcases exec_inv ht with hc | ⟨f, -, rfl⟩
  · obtain ⟨u', hc', -, hbyte⟩ := hc.onMemory m hm
    cases (exec_of_completed hc').symm.trans hu
    exact hbyte addr ha
  · exact absurd rfl hne

end

/-- Settles O15: the byte `k` is past the instruction at pc, so the same instruction runs on a memory
that differs at `k` only; both ends agree outside memory and store the same byte at the same address. -/
theorem unusedOperandBytesAreIgnored : Obligations.UnusedOperandBytesAreIgnored := by
  intro s i v k hr hpc hi hk
  have hpast : s.pc.toNat + i.length ≤ k := by
    rcases hk with ⟨rfl, hf⟩ | ⟨rfl, hf | hf⟩ <;> simp [Instr.length, hf, Format.length]
  have hi' : (s.setByte k v).instrAtPc = .ok i := State.instrAtPc_setByte hi hpast
  have hstep : step s = exec i s := step_eq_exec hr hpc hi
  have hstep' : step (s.setByte k v) = exec i (s.setByte k v) := step_eq_exec hr hpc hi'
  refine ⟨hstep', fun hsp => ?_⟩
  obtain ⟨t, ht⟩ := exec_isNext i s
  obtain ⟨u, hu⟩ := exec_isNext i (s.setByte k v)
  have hpopped : i.mnemonic = .POP ∨ i.mnemonic = .RET →
      (s.mem.set k v).get s.sp.toNat = s.byteAt s.sp.toNat := fun hpop =>
    (s.byteAt_setByte k _ v).trans (if_neg (hsp hpop))
  have hsame : t.SameButMemory u := exec_sameButMemory ht hu hpopped
  have hstores (addr : Nat) : StoresAt (s.setByte k v) u addr ↔ StoresAt s t addr := by
    rw [storesAt_iff hi, storesAt_iff hi', hsame.status, State.setByte_eq_replaceMem]
    exact and_congr_right fun _ => by rw [State.replaceMem, storeAddress_mem]
  have hstored (addr : Nat) (hs : StoresAt s t addr) : u.byteAt addr = t.byteAt addr := by
    obtain ⟨hne, ha⟩ := (storesAt_iff hi).1 hs
    exact exec_storedByte_eq ht hu hpopped hne ha
  have hkept (addr : Nat) (hs : ¬StoresAt s t addr) :
      u.byteAt addr = if addr = k then v else s.byteAt addr := by
    rw [step_byteAt (hstep'.trans hu) (mt (hstores addr).1 hs), State.byteAt_setByte]
  refine ⟨t, u, hstep.trans ht, hstep'.trans hu, hsame, fun b hb => ?_, hstored k, fun hs => ?_⟩
  · by_cases hs : StoresAt s t b
    · exact hstored b hs
    · rw [hkept b hs, if_neg hb, step_byteAt (hstep.trans ht) hs]
  · rw [hkept k hs, if_pos rfl]

end Sys2Proof.Machine
end

section
/-! PROOFS. The engine's cycle: what a step of each status does (R91, R92, R99), the order of the register
checks (R94), where the next pc comes from (R102), and how a Running step ends (R90, R97, R98). -/

namespace Sys2Proof.Machine

/-! ### Outside Running -/

theorem State.ended.status_ne_running {s : State} (h : s.ended) : s.status ≠ .running := by
  rcases h with h | h <;> simp [h]

theorem State.ended.status_ne_ready {s : State} (h : s.ended) : s.status ≠ .ready := by
  rcases h with h | h <;> simp [h]

/-- Outside Running the trace port delivers no record (R46, D24). -/
theorem traceRecord_idle {s : State} (h : s.status ≠ .running) : traceRecord s = none := by
  unfold traceRecord
  cases hs : s.status with
  | running => exact absurd hs h
  | _ => rfl

/-- Outside Ready every transaction but `reset` leaves the state as it is (R42, R43). -/
theorem port_state_eq {s : State} (h : s.status ≠ .ready) {c : PortCmd} (hreset : c ≠ .reset) :
    (port c s).2 = s := by
  by_cases hrun : c = .run
  · rw [hrun, (runStartsOnlyFromReady s).2 h]
  · rw [port_write_refused h hreset hrun]

/-- Settles O2: the idle step, and the trace record it does not deliver. -/
theorem nothingMovesOutsideRunning : Obligations.NothingMovesOutsideRunning := by
  intro s h
  exact ⟨step_idle h, traceRecord_idle h⟩

/-- Settles O4: Halted and Faulted are neither Running, where a step would act, nor Ready, where a
transaction would. -/
theorem onlyResetLeavesTheTerminalStates : Obligations.OnlyResetLeavesTheTerminalStates := by
  intro s h
  exact ⟨step_idle h.status_ne_running, fun c hreset => port_state_eq h.status_ne_ready hreset, rfl⟩

/-! ### One step -/

/-- Everything a Running step can do: enter a fault, or complete the instruction at pc. -/
theorem step_inv {s t : State} (hr : s.status = .running) (h : step s = .next t) :
    (∃ f, t = s.enterFault f) ∨
      ∃ i, s.pc.toNat ≤ 253 ∧ s.instrAtPc = .ok i ∧ Completed i s t := by
  rcases step_cases s with ⟨hn, -⟩ | ⟨-, -, e⟩ | ⟨-, -, -, e⟩ | ⟨-, hpc, i, hi, e⟩
  · exact absurd hr hn
  · cases e.symm.trans h; exact .inl ⟨_, rfl⟩
  · cases e.symm.trans h; exact .inl ⟨_, rfl⟩
  · rcases exec_inv (e.symm.trans h) with hc | ⟨f, -, ht⟩
    · exact .inr ⟨i, hpc, hi, hc⟩
    · exact .inl ⟨f, ht⟩

/-- Settles O8: by the cycle of a state whose bytes decode. -/
theorem stepRunsTheDecodedInstruction : Obligations.StepRunsTheDecodedInstruction := by
  intro s i hr hpc hi
  exact step_eq_exec hr hpc hi

/-- Settles O9: by the fetch fault of the cycle, before any byte is decoded. -/
theorem fetchFaultsInTheTopTwoCells : Obligations.FetchFaultsInTheTopTwoCells := by
  intro s hr hpc
  exact (step_running hr).trans (cycle_fetchFault hpc)

/-- Settles O11: the idle step and the two fault entries are next states, and so is every execution. -/
theorem everyStepEndsInANextState : Obligations.EveryStepEndsInANextState := by
  intro s
  rcases step_cases s with ⟨-, e⟩ | ⟨-, -, e⟩ | ⟨-, -, -, e⟩ | ⟨-, -, i, -, e⟩
  · exact ⟨_, e⟩
  · exact ⟨_, e⟩
  · exact ⟨_, e⟩
  · rw [e]; exact exec_isNext i s

/-! ### The order of the register checks -/

section
variable {a b c : Byte} {s : State}

/-- A body that begins with the check of its one register byte faults if that byte is invalid. -/
theorem complete_checkReg_faults (h : [a].find? (fun r => decide (8 ≤ r.toNat)) = some c)
    (k : RegIndex → Except Fault State) :
    Faults (complete s (checkReg a >>= k)) s (.invalidRegister c) := by
  obtain ⟨h8, rfl⟩ : 8 ≤ a.toNat ∧ a = c := by simpa using h
  rw [checkReg_error h8]; rfl

/-- A body that begins with the check of its two register bytes faults with the first invalid one. -/
theorem complete_checkRegs_faults (h : [a, b].find? (fun r => decide (8 ≤ r.toNat)) = some c)
    (k : RegIndex × RegIndex → Except Fault State) :
    Faults (complete s (checkRegs a b >>= k)) s (.invalidRegister c) := by
  by_cases ha : 8 ≤ a.toNat
  · obtain rfl : a = c := by simpa [ha] using h
    rw [checkRegs_eq_error.2 (.inl ⟨ha, rfl⟩)]; rfl
  · obtain ⟨hb, rfl⟩ : 8 ≤ b.toNat ∧ b = c := by simpa [ha] using h
    rw [checkRegs_eq_error.2 (.inr ⟨by omega, hb, rfl⟩)]; rfl

end

/-- Settles O18: every instruction with register bytes begins with their check, `a` before `b`. -/
theorem firstInvalidRegisterFaults : Obligations.FirstInvalidRegisterFaults := by
  intro i s c h
  cases i with
  | hlt => cases h
  | ret => cases h
  | mul a b => exact complete_checkRegs_faults h _
  | add a b => exact complete_checkRegs_faults h _
  | cmp a b => exact complete_checkRegs_faults h _
  | _ => exact complete_checkReg_faults h _

/-! ### The next pc -/

/-- A valid register byte is its register's index, as the register target of R102 is named. -/
theorem singleton_eq_of_toNat_eq {a : Byte} {r : RegIndex} (h : a.toNat = r.val) :
    [a] = [BitVec.ofNat 8 r.val] := by
  rw [← h, BitVec.ofNat_toNat, BitVec.setWidth_eq]

/-- Settles O40: by the way the instruction completes; a conditional jump is taken exactly where its
test of E says so, and the instructions not named fall through. -/
theorem nextPcFollowsItsClass : Obligations.NextPcFollowsItsClass := by
  intro i s t h _ hne
  rcases exec_inv h with hc | ⟨f, -, rfl⟩
  case inr => exact absurd rfl hne
  cases hc with
  | hlt => exact rfl
  | call r ha hs hp => exact ⟨r, singleton_eq_of_toNat_eq ha, rfl⟩
  | ret hs => exact rfl
  | jmp r ha => exact ⟨r, singleton_eq_of_toNat_eq ha, rfl⟩
  | jeqTaken r ha he =>
    exact ⟨fun _ => ⟨r, singleton_eq_of_toNat_eq ha, rfl⟩,
      fun hnot => absurd (iff_of_true rfl he) hnot⟩
  | jeqNot r ha he hp =>
    exact ⟨fun htaken => absurd (htaken.1 rfl) (ne_true_of_eq_false he),
      fun _ => toNat_ofNat_add hp⟩
  | jneTaken r ha he =>
    exact ⟨fun _ => ⟨r, singleton_eq_of_toNat_eq ha, rfl⟩,
      fun hnot => absurd (iff_of_false nofun (ne_true_of_eq_false he)) hnot⟩
  | jneNot r ha he hp =>
    exact ⟨fun htaken => absurd (htaken.2 he) nofun, fun _ => toNat_ofNat_add hp⟩
  | _ => rename_i hp; exact toNat_ofNat_add hp

/-! ### How a Running step ends -/

/-- A completing HLT leaves Halted (R111). -/
theorem Completed.status_of_hlt {s t : State} (h : Completed .hlt s t) : t.status = .halted := by
  cases h; rfl

/-- A Running step at a HLT that is fetched halts (R111). -/
theorem step_hlt {s : State} (hr : s.status = .running) (hpc : s.pc.toNat ≤ 253)
    (hi : s.instrAtPc = .ok .hlt) : step s = .next (s.setStatus .halted) :=
  (step_eq_exec hr hpc hi).trans (exec_of_completed .hlt)

/-- Settles O42: a completing instruction does not end in Faulted, so the step entered a fault. -/
theorem faultsArePrecise : Obligations.FaultsArePrecise := by
  intro s t hr h ht
  rcases step_inv hr h with hfault | ⟨i, -, -, hc⟩
  · exact hfault
  · exact absurd ht (hc.status_ne_faulted (by simp [hr]))

/-- Settles O41: by the two ends of a Running step; a completed instruction keeps Running but for
HLT, and records no fault. -/
theorem runningLeavesByHaltOrFault : Obligations.RunningLeavesByHaltOrFault := by
  intro s t hr hnone h
  have hhlt : s.pc.toNat ≤ 253 ∧ s.instrAtPc = .ok .hlt → t.status = .halted := by
    rintro ⟨hpc, hi⟩
    cases (step_hlt hr hpc hi).symm.trans h
    rfl
  rcases step_inv hr h with ⟨f, rfl⟩ | ⟨i, hpc, hi, hc⟩
  · exact ⟨.inr (.inr rfl), ⟨nofun, hhlt⟩, by simp⟩
  · have hnf : t.status ≠ .faulted := hc.status_ne_faulted (by simp [hr])
    have hfault : t.fault = none := hc.fault_eq.trans hnone
    by_cases hih : i = .hlt
    · subst hih
      have ht := hc.status_of_hlt
      exact ⟨.inr (.inl ht), ⟨fun _ => ⟨hpc, hi⟩, hhlt⟩, by simp [hnf, hfault]⟩
    · have ht : t.status = .running := (hc.status_eq hih).trans hr
      exact ⟨.inl ht, ⟨fun hh => by simp [ht] at hh, hhlt⟩, by simp [hnf, hfault]⟩

end Sys2Proof.Machine
end

section
/-! PROOFS. The system and data instructions HLT, LDI and PRN (R111 to R113). -/

namespace Sys2Proof.Machine

/-- A completing instruction other than HLT keeps the machine state and the fault record (R96). -/
theorem Completed.keepsControl {i : Instr} {s t : State} (h : Completed i s t) (hi : i ≠ .hlt) :
    s.KeepsControl t :=
  ⟨h.status_eq hi, h.fault_eq⟩

/-- A completing instruction that writes at most the register `r` keeps the others (Table S1). -/
theorem Completed.keepsRegsBut_singleton {i : Instr} {s t : State} (h : Completed i s t)
    {r : RegIndex} (hw : writtenRegs i = [r.val]) : s.KeepsRegsBut [r] t := by
  intro q hq
  refine h.reg_eq ?_
  rw [hw, List.mem_singleton, ← Fin.ext_iff]
  exact mt List.mem_singleton.2 hq

/-- A completing instruction that writes no register keeps all of them (Table S1). -/
theorem Completed.keepsRegsBut_nil {i : Instr} {s t : State} (h : Completed i s t)
    (hw : writtenRegs i = []) : s.KeepsRegsBut [] t :=
  fun _ _ => h.reg_eq (by simp [hw])

/-- From pc 253 an instruction of three bytes has no fall-through address (D6). -/
theorem advance_three_error {s : State} (h : s.pc.toNat = 253) :
    advance 3 s = .error (.outOfBounds 256) := by
  rw [advance_error (by omega), h]; rfl

/-- LDI at pc 253 faults after its register check; the register it set is discarded (R97). -/
theorem exec_ldi_faults {a : Byte} (b : Byte) {s : State} (ha : a.toNat < 8)
    (hp : s.pc.toNat = 253) : Faults (exec (.ldi a b) s) s (.outOfBounds 256) := by
  rw [exec, execLdi, checkReg_ok ha, ok_bind, advance_three_error (by exact hp)]; rfl

/-- Settles O22: by HLT's one way to complete. -/
theorem hltStopsTheMachine : Obligations.HltStopsTheMachine := by
  intro s
  exact exec_of_completed .hlt

/-- Settles O23: LDI completes up to pc 252, and past it `NextPC` faults. -/
theorem ldiLoadsItsImmediate : Obligations.LdiLoadsItsImmediate := by
  intro a b s ha
  refine ⟨fun hpc => ?_, exec_ldi_faults b ha⟩
  have hp : s.pc.toNat + 3 < 256 := by omega
  have hc := Completed.ldi (b := b) ⟨a.toNat, ha⟩ rfl hp
  exact ⟨_, exec_of_completed hc, by simp, hc.keepsRegsBut_singleton rfl, toNat_ofNat_add hp, rfl,
    fun _ => rfl, rfl, hc.keepsControl nofun⟩

/-- Settles O24: PRN completes up to pc 253, and writes no register. -/
theorem prnAppendsTheRegister : Obligations.PrnAppendsTheRegister := by
  intro a s ha hpc
  have hp : s.pc.toNat + 2 < 256 := by omega
  have hc := Completed.prn (a := a) ⟨a.toNat, ha⟩ rfl hp
  exact ⟨_, exec_of_completed hc, rfl, hc.keepsRegsBut_nil rfl, toNat_ofNat_add hp, rfl,
    fun _ => rfl, hc.keepsControl nofun⟩

end Sys2Proof.Machine
end

section
/-! PROOFS. The ALU: its three operations (R131 to R133), the instructions MUL, ADD and CMP (R134 to
R136), and its guard (R137, D27). -/

namespace Sys2Proof.Machine

/-! ### The compare flags -/

section
variable {p q : Byte}

theorem compareFlags_of_lt (h : p.toNat < q.toNat) : compareFlags p q = flagLess := if_pos h

theorem compareFlags_of_gt (h : q.toNat < p.toNat) : compareFlags p q = flagGreater := by
  rw [compareFlags, if_neg (by omega), if_pos h]

theorem compareFlags_of_eq (h : p.toNat = q.toNat) : compareFlags p q = flagEqual := by
  rw [compareFlags, if_neg (by omega), if_neg (by omega)]

end

/-- Settles O20: the low byte of a number is its remainder by 256, and of two numbers one is less,
greater or equal. -/
theorem aluComputesItsThreeOperations : Obligations.AluComputesItsThreeOperations := by
  intro p q
  refine ⟨⟨_, rfl, BitVec.toNat_ofNat ..⟩, ⟨_, rfl, BitVec.toNat_ofNat ..⟩, ?_, ?_, ?_⟩ <;> intro h
  · rw [alu, compareFlags_of_lt h]; rfl
  · rw [alu, compareFlags_of_gt h]; rfl
  · rw [alu, compareFlags_of_eq h]; rfl

/-! ### MUL, ADD and CMP -/

/-- What the ALU answers is written to a register or to FL, never to pc (R134 to R136). -/
@[simp] theorem State.writeAlu_pc (s : State) (r : RegIndex) (res : Option Byte × Option Byte) :
    (s.writeAlu r res).pc = s.pc := by
  obtain ⟨_ | v, _ | f⟩ := res <;> rfl

/-- At pc 253 an ALU instruction faults after its operation; what it wrote is discarded (R97, D6). -/
theorem complete_aluStep_faults {m : Mnemonic} {op : AluOp} {a b : Byte} {s : State}
    (hm : m.aluOp = some op) (ha : a.toNat < 8) (hb : b.toNat < 8) (hp : s.pc.toNat = 253) :
    Faults (complete s (aluStep m a b s)) s (.outOfBounds 256) := by
  have hadv : ∀ r res, advance 3 (s.writeAlu r res) = .error (.outOfBounds 256) :=
    fun r res => advance_three_error (by rw [State.writeAlu_pc, hp])
  simp only [aluStep, checkRegs_ok ha hb, aluUnit, hm, ok_bind, hadv]
  rfl

/-- An instruction of three bytes that completes by writing the low byte of `n` to the register `r`
changes nothing else but pc: the common effect of MUL and ADD. -/
theorem Completed.writesLowByte {i : Instr} {s : State} {r : RegIndex} {n : Nat}
    (hc : Completed i s ((s.setReg r (BitVec.ofNat 8 n)).setPc (s.pcPlus 3)))
    (hw : writtenRegs i = [r.val]) (hp : s.pc.toNat + 3 < 256) :
    ∃ t, exec i s = .next t ∧ (t.reg r).toNat = n % 256 ∧ s.KeepsRegsBut [r] t ∧
      t.pc.toNat = s.pc.toNat + 3 ∧ t.fl = s.fl ∧ s.KeepsMemory t ∧ t.out = s.out ∧
      s.KeepsControl t := by
  have hi : i ≠ .hlt := by rintro rfl; cases hw
  exact ⟨_, exec_of_completed hc, by simp, hc.keepsRegsBut_singleton hw, toNat_ofNat_add hp, rfl,
    fun _ => rfl, rfl, hc.keepsControl hi⟩

/-- Settles O25: MUL completes up to pc 252 with the low byte of the product. -/
theorem mulWritesTheLowProduct : Obligations.MulWritesTheLowProduct := by
  intro a b s ha hb
  refine ⟨fun hpc => ?_, complete_aluStep_faults rfl ha hb⟩
  have hp : s.pc.toNat + 3 < 256 := by omega
  exact (Completed.mul ⟨a.toNat, ha⟩ ⟨b.toNat, hb⟩ rfl rfl hp).writesLowByte rfl hp

/-- Settles O26: ADD completes up to pc 252 with the low byte of the sum. -/
theorem addWritesTheLowSum : Obligations.AddWritesTheLowSum := by
  intro a b s ha hb
  refine ⟨fun hpc => ?_, complete_aluStep_faults rfl ha hb⟩
  have hp : s.pc.toNat + 3 < 256 := by omega
  exact (Completed.add ⟨a.toNat, ha⟩ ⟨b.toNat, hb⟩ rfl rfl hp).writesLowByte rfl hp

/-- Settles O27: CMP completes up to pc 252 with the flags of the comparison, and writes no register. -/
theorem cmpReplacesTheFlags : Obligations.CmpReplacesTheFlags := by
  intro a b s ha hb
  refine ⟨fun hpc => ?_, complete_aluStep_faults rfl ha hb⟩
  have hp : s.pc.toNat + 3 < 256 := by omega
  have hc := Completed.cmp (a := a) (b := b) ⟨a.toNat, ha⟩ ⟨b.toNat, hb⟩ rfl rfl hp
  exact ⟨_, exec_of_completed hc, compareFlags_of_lt, compareFlags_of_gt,
    fun h => compareFlags_of_eq (congrArg BitVec.toNat h), hc.keepsRegsBut_nil rfl,
    toNat_ofNat_add hp, fun _ => rfl, rfl, hc.keepsControl nofun⟩

/-! ### The guard -/

/-- The decoder supplies an ALU operation for ADD, MUL and CMP alone (R101). -/
theorem Mnemonic.aluOp_eq_none {m : Mnemonic} :
    m.aluOp = none ↔ m ≠ .ADD ∧ m ≠ .MUL ∧ m ≠ .CMP := by
  cases m <;> decide

/-- The guard of the ALU rejects exactly the mnemonics without an ALU operation (R137). -/
theorem aluUnit_eq_error {m : Mnemonic} {p q : Byte} :
    aluUnit m p q = .error (.unsupportedOperation m) ↔ m.aluOp = none := by
  cases h : m.aluOp <;> simp [aluUnit, h]

/-- A fault that a step records where none was recorded is one of Table X2 (R193), whether or not the
state it starts from is reachable. -/
theorem step_recorded_possible {s t : State} {r : FaultRecord} (hnone : s.fault = none)
    (h : step s = .next t) (hr : t.fault = some r) : r.cause.possible := by
  rcases step_cases s with ⟨-, e⟩ | ⟨-, -, e⟩ | ⟨-, -, hop, e⟩ | ⟨-, hpc, i, -, e⟩ <;>
    rw [e] at h
  case inr.inr.inr =>
    rcases exec_inv h with hc | ⟨f, hf, rfl⟩
    · cases (hc.fault_eq.trans hnone).symm.trans hr
    · cases hr; exact hf.possible hpc
  all_goals cases h
  · cases hnone.symm.trans hr
  · cases hr; exact .inr rfl
  · cases hr; exact hop

/-- Settles O21: the guard rejects where there is no operation, and UnsupportedOperation is not a
fault of Table X2. -/
theorem unsupportedOperationIsUnreachable : Obligations.UnsupportedOperationIsUnreachable := by
  refine ⟨fun m p q => aluUnit_eq_error.trans Mnemonic.aluOp_eq_none, ?_⟩
  intro s t r m hnone h hr hcause
  have hp := step_recorded_possible hnone h hr
  rw [hcause] at hp
  exact hp

end Sys2Proof.Machine
end

section
/-! PROOFS. The stack instructions PUSH and POP (R153, R154), and PUSH followed by POP (R155). -/

namespace Sys2Proof.Machine

/-! ### Registers -/

/-- A completing instruction keeps the registers outside any list that holds Table S1's. -/
theorem Completed.keepsRegsBut {i : Instr} {s t : State} (h : Completed i s t) {rs : List RegIndex}
    (hw : writtenRegs i ⊆ rs.map Fin.val) : s.KeepsRegsBut rs t :=
  fun _ hq => h.reg_eq fun hm => hq ((List.mem_map_of_injective Fin.val_injective).1 (hw hm))

@[simp] theorem State.setReg_reg_self (s : State) (r : RegIndex) : s.setReg r (s.reg r) = s := by
  simp [State.setReg, State.reg]

/-- A register byte names the stack pointer exactly when it is 7 (R24). -/
theorem eq_spIndex_iff {a : Byte} (ha : a.toNat < 8) :
    (⟨a.toNat, ha⟩ : RegIndex) = Config.spIndex ↔ a.toNat = 7 := Fin.ext_iff

/-! ### PUSH -/

/-- Settles O28: PUSH completes at SP ≥ 1 with the register as it is after `SPDec`, and at SP = 0
`SPDec` faults. -/
theorem pushStoresBelowTheStackPointer : Obligations.PushStoresBelowTheStackPointer := by
  intro a s ha
  refine ⟨fun hs hpc => ?_, fun hs => ?_⟩
  · have hp : s.pc.toNat + 2 < 256 := by omega
    have hc := Completed.push (a := a) ⟨a.toNat, ha⟩ rfl hs hp
    refine ⟨_, exec_of_completed hc, by simp [pred_toNat hs], hc.keepsRegsBut (List.Subset.refl _),
      ?_, fun b hb => by simp [hb], toNat_ofNat_add hp, rfl, rfl, hc.keepsControl nofun⟩
    simp [State.reg_setSp, eq_spIndex_iff ha]
  · rw [exec, execPush, checkReg_ok ha, ok_bind, spDec_error hs]; rfl

/-! ### POP -/

/-- The state of POP between its two writes: the register holds the byte at SP (R154). -/
abbrev State.popLoad (s : State) (r : RegIndex) : State := s.setReg r (s.byteAt s.sp.toNat)

/-- The load of POP R7 replaces SP by the popped byte (D17), every other leaves SP. -/
theorem State.sp_popLoad (s : State) {a : Byte} (ha : a.toNat < 8) :
    (s.popLoad ⟨a.toNat, ha⟩).sp = if a.toNat = 7 then s.byteAt s.sp.toNat else s.sp := by
  simp [State.sp_setReg, eq_comm (a := Config.spIndex), eq_spIndex_iff ha]

/-- What POP does whenever SP, as its load leaves it, can be incremented. -/
theorem exists_completed_pop {a : Byte} {s : State} (ha : a.toNat < 8) (hpc : s.pc.toNat ≤ 253)
    (hs : (s.popLoad ⟨a.toNat, ha⟩).sp.toNat ≤ 254) :
    ∃ t, Completed (.pop a) s t ∧
      (a.toNat ≠ 7 → t.reg ⟨a.toNat, ha⟩ = s.byteAt s.sp.toNat) ∧
      t.sp.toNat = (s.popLoad ⟨a.toNat, ha⟩).sp.toNat + 1 ∧ s.KeepsMemory t ∧
      t.pc.toNat = s.pc.toNat + 2 ∧ t.fl = s.fl ∧ t.out = s.out ∧ s.KeepsControl t := by
  have hp : s.pc.toNat + 2 < 256 := by omega
  have hc := Completed.pop (a := a) ⟨a.toNat, ha⟩ rfl hs hp
  refine ⟨_, hc, fun h7 => ?_, ?_, fun _ => rfl, toNat_ofNat_add hp, rfl, rfl,
    hc.keepsControl nofun⟩
  · have hr : (⟨a.toNat, ha⟩ : RegIndex) ≠ Config.spIndex := mt (eq_spIndex_iff ha).1 h7
    simp [hr]
  · rw [State.sp_setPc, State.sp_setSp, succ_toNat hs]

/-- POP faults when SP, as its load leaves it, is 255 (D14); the load is discarded (R97). -/
theorem exec_pop_faults {a : Byte} {s : State} (ha : a.toNat < 8)
    (hs : (s.popLoad ⟨a.toNat, ha⟩).sp.toNat = 255) :
    Faults (exec (.pop a) s) s (.outOfBounds 256) := by
  rw [exec, execPop, checkReg_ok ha, ok_bind, memRead_byte, ok_bind, spInc_error hs]; rfl

/-- Settles O29: the value to be incremented is the popped byte for R7 and the old SP for another
register; up to 254 POP completes, and at 255 it faults. -/
theorem popLoadsFromTheStackPointer : Obligations.PopLoadsFromTheStackPointer := by
  intro a s ha hpc
  have hsp := s.sp_popLoad ha
  refine ⟨fun h7 hs => ?_, fun h7 hs => ?_, fun h7 hs => ?_, fun h7 hs => ?_⟩
  · rw [if_neg h7] at hsp
    obtain ⟨t, hc, hreg, hspt, hframe⟩ := exists_completed_pop ha hpc (by rwa [hsp])
    exact ⟨t, exec_of_completed hc, hreg h7, by rw [hspt, hsp],
      hc.keepsRegsBut (List.Subset.refl _), hframe⟩
  · rw [if_pos h7] at hsp
    obtain ⟨t, hc, -, hspt, hframe⟩ := exists_completed_pop ha hpc (by rwa [hsp])
    exact ⟨t, exec_of_completed hc, by rw [hspt, hsp],
      hc.keepsRegsBut (by simp [writtenRegs, h7]), hframe⟩
  · exact exec_pop_faults ha (by rwa [hsp, if_neg h7])
  · exact exec_pop_faults ha (by rwa [hsp, if_pos h7])

/-! ### PUSH then POP -/

/-- POP of the register whose value is at SP already changes no register but SP, R7 included. -/
theorem Completed.pop_ownValue {a : Byte} {s : State} (r : RegIndex) (ha : a.toNat = r.val)
    (hv : s.byteAt s.sp.toNat = s.reg r) (hs : s.sp.toNat ≤ 254) (hp : s.pc.toNat + 2 < 256) :
    Completed (.pop a) s (s.spUp.setPc (s.pcPlus 2)) := by
  have hload : s.setReg r (s.byteAt s.sp.toNat) = s := by rw [hv, State.setReg_reg_self]
  have hc := Completed.pop r ha (by rwa [hload]) hp
  rwa [hload] at hc

/-- Settles O47: after PUSH the byte at SP is the register's own value, for R7 too, so POP changes
SP only and restores it. -/
theorem pushThenPopIsTheIdentity : Obligations.PushThenPopIsTheIdentity := by
  intro a s ha hs hpc
  obtain ⟨t, hpush, hspt, hregs, hcell, hmem, hpct, hfl, hout, hctl⟩ :=
    (pushStoresBelowTheStackPointer a s ha).1 hs (by omega)
  have hown : t.byteAt t.sp.toNat = t.reg ⟨a.toNat, ha⟩ := by
    rw [hspt, hcell]
    split
    case isTrue h7 => rw [State.sp_eq, (eq_spIndex_iff ha).2 h7]
    case isFalse h7 =>
      have hr : (⟨a.toNat, ha⟩ : RegIndex) ∉ [7] :=
        fun hm => h7 ((eq_spIndex_iff ha).1 (List.mem_singleton.1 hm))
      exact (hregs _ hr).symm
  have hlt := s.sp.isLt
  have hspt254 : t.sp.toNat ≤ 254 := by omega
  have hp : t.pc.toNat + 2 < 256 := by omega
  have hpop := Completed.pop_ownValue (a := a) ⟨a.toNat, ha⟩ rfl hown hspt254 hp
  refine ⟨t, _, hpush, exec_of_completed hpop, fun q _ => ?_, hfl, hout, hctl, ?_, hmem, rfl⟩
  · rw [State.reg_setPc, State.reg_setSp]
    split
    case isTrue hq =>
      rw [hq, ← State.sp_eq]
      exact BitVec.eq_of_toNat_eq (by rw [succ_toNat hspt254]; omega)
    case isFalse hq => exact hregs q (mt List.mem_singleton.1 hq)
  · rw [State.setPc_pc, toNat_ofNat_add hp, hpct]

end Sys2Proof.Machine
end

section
/-! PROOFS. The control transfers CALL, RET, JMP, JEQ and JNE (R172 to R178), the Equal test (R171), and
CALL followed by RET (R175). -/

namespace Sys2Proof.Machine

/-! ### JMP, JEQ and JNE -/

/-- An instruction of two bytes that completes by moving pc past itself changes nothing else: the common
effect of JEQ and JNE not taken. -/
theorem Completed.onlyFallsThrough {i : Instr} {s : State}
    (hc : Completed i s (s.setPc (s.pcPlus 2))) (hw : writtenRegs i = []) (hi : i ≠ .hlt)
    (hp : s.pc.toNat + 2 < 256) :
    ∃ t, exec i s = .next t ∧ t.pc.toNat = s.pc.toNat + 2 ∧ s.KeepsRegsBut [] t ∧ t.fl = s.fl ∧
      s.KeepsMemory t ∧ t.out = s.out ∧ s.KeepsControl t :=
  ⟨_, exec_of_completed hc, toNat_ofNat_add hp, hc.keepsRegsBut_nil hw, rfl, fun _ => rfl, rfl,
    hc.keepsControl hi⟩

/-- Settles O32: by JMP's one way to complete. -/
theorem jmpGoesToTheRegister : Obligations.JmpGoesToTheRegister := by
  intro a s ha
  exact exec_of_completed (.jmp ⟨a.toNat, ha⟩ rfl)

/-- Settles O33: JEQ is taken where E is set, and falls through up to pc 253 where it is clear. -/
theorem jeqJumpsWhenEqual : Obligations.JeqJumpsWhenEqual := by
  intro a s ha
  refine ⟨fun he => exec_of_completed (.jeqTaken ⟨a.toNat, ha⟩ rfl he), fun he hpc => ?_⟩
  have hp : s.pc.toNat + 2 < 256 := by omega
  exact (Completed.jeqNot (a := a) ⟨a.toNat, ha⟩ rfl he hp).onlyFallsThrough rfl nofun hp

/-- Settles O34: JNE is taken where E is clear, and falls through up to pc 253 where it is set. -/
theorem jneJumpsWhenNotEqual : Obligations.JneJumpsWhenNotEqual := by
  intro a s ha
  refine ⟨fun he => exec_of_completed (.jneTaken ⟨a.toNat, ha⟩ rfl he), fun he hpc => ?_⟩
  have hp : s.pc.toNat + 2 < 256 := by omega
  exact (Completed.jneNot (a := a) ⟨a.toNat, ha⟩ rfl he hp).onlyFallsThrough rfl nofun hp

/-! ### The Equal test -/

/-- The mask 0xFE holds every bit of a byte but bit 0. -/
theorem getLsbD_maskFE : ∀ k < 8, (0xFE#8).getLsbD k = decide (k ≠ 0) := by decide

/-- Clearing bit 0 leaves exactly the bytes unchanged in which it is 0 (R171, C7). -/
theorem eq_and_maskFE_iff {fl : Byte} : fl = fl &&& 0xFE#8 ↔ equalFlag fl = false := by
  constructor
  · intro h
    rw [equalFlag, h, BitVec.getLsbD_and, getLsbD_maskFE 0 (by omega)]
    simp
  · intro h
    refine BitVec.eq_of_getLsbD_eq fun k hk => ?_
    rw [BitVec.getLsbD_and, getLsbD_maskFE k hk]
    by_cases h0 : k = 0
    · subst h0
      rw [show fl.getLsbD 0 = false from h, Bool.false_and]
    · simp [h0]

/-- Settles O45: the test and its masked form by the bits, and JEQ and JNE commute with a change of FL
that keeps bit 0 (`exec_overlay`). -/
theorem equalTestIsBitZero : Obligations.EqualTestIsBitZero := by
  refine ⟨fun fl => ⟨rfl, eq_and_maskFE_iff⟩, fun a s t f hbit => ⟨fun h => ?_, fun h => ?_⟩⟩
  · exact exec_overlay (g := fun _ => f) (o := []) h nofun fun _ => hbit
  · exact exec_overlay (g := fun _ => f) (o := []) h nofun fun _ => hbit

/-! ### CALL and RET -/

/-- Settles O30: CALL completes at SP ≥ 1 with its target as it is after `SPDec`, and at SP = 0 `SPDec`
faults. -/
theorem callPushesTheReturnAddress : Obligations.CallPushesTheReturnAddress := by
  intro a s ha hpc
  refine ⟨fun hs => ?_, fun hs => ?_⟩
  · have hp : s.pc.toNat + 2 < 256 := by omega
    have hc := Completed.call (a := a) ⟨a.toNat, ha⟩ rfl hs hp
    refine ⟨_, exec_of_completed hc, by simp [pred_toNat hs], hc.keepsRegsBut (List.Subset.refl _),
      ?_, fun b hb => by simp [hb], ?_, rfl, rfl, hc.keepsControl nofun⟩
    · simp [toNat_ofNat_add hp]
    · simp [State.reg_setSp, eq_spIndex_iff ha]
  · rw [exec, execCall, checkReg_ok ha, ok_bind, spDec_error hs]; rfl

/-- Settles O31: RET completes up to SP 254, and at SP = 255 `SPInc` faults; the pc it had set is
discarded (R97). -/
theorem retPopsTheReturnAddress : Obligations.RetPopsTheReturnAddress := by
  intro s
  refine ⟨fun hs => ?_, fun hs => ?_⟩
  · have hc := Completed.ret hs
    exact ⟨_, exec_of_completed hc, rfl, by simp [succ_toNat hs],
      hc.keepsRegsBut (List.Subset.refl _), fun _ => rfl, rfl, rfl, hc.keepsControl nofun⟩
  · rw [exec, execRet, memRead_byte, ok_bind, spInc_error (by exact hs)]; rfl

/-! ### CALL then RET -/

section
variable {s t u : State}

theorem State.KeepsRegsBut.trans {rs : List RegIndex} (hst : s.KeepsRegsBut rs t)
    (htu : t.KeepsRegsBut rs u) : s.KeepsRegsBut rs u :=
  fun q hq => (htu q hq).trans (hst q hq)

/-- With SP restored, a state that keeps the registers but R7 keeps all of them (R24). -/
theorem State.KeepsRegsBut.nil_of_sp_eq (h : s.KeepsRegsBut [7] t) (hsp : t.sp = s.sp) :
    s.KeepsRegsBut [] t := by
  intro q _
  by_cases hq : q = 7
  · subst hq; exact hsp
  · exact h q (mt List.mem_singleton.1 hq)

theorem State.KeepsControl.trans (hst : s.KeepsControl t) (htu : t.KeepsControl u) :
    s.KeepsControl u :=
  ⟨htu.1.trans hst.1, htu.2.trans hst.2⟩

/-- The bytes at pc of a CALL (Table E2). -/
theorem State.instrAtPc_call {a : Byte} (hop : s.byteAt s.pc.toNat = 0x50#8)
    (ha : s.byteAt (s.pc.toNat + 1) = a) : s.instrAtPc = .ok (.call a) := by
  rw [State.instrAtPc, hop, ha]; rfl

/-- The byte at pc of a RET (Table E2). -/
theorem State.instrAtPc_ret (hop : s.byteAt s.pc.toNat = 0x11#8) : s.instrAtPc = .ok .ret := by
  rw [State.instrAtPc, hop]; rfl

end

/-- Settles O48: CALL leaves the return address at the decremented SP, where RET reads it. -/
theorem callThenRetReturns : Obligations.CallThenRetReturns := by
  intro s t a hr hpc ha hop hbyte hs hstep htpc htop
  have hcall : step s = exec (.call a) s := step_eq_exec hr hpc (State.instrAtPc_call hop hbyte)
  obtain ⟨t', ht', hspt, hregst, hcell, -, -, hflt, -, hctlt⟩ :=
    (callPushesTheReturnAddress a s ha hpc).1 hs
  cases (hcall.trans ht').symm.trans hstep
  have hlt := s.sp.isLt
  have hret : step t = exec .ret t :=
    step_eq_exec (hctlt.1.trans hr) htpc (State.instrAtPc_ret htop)
  obtain ⟨u, hu, hpcu, hspu, hregsu, -, hflu, -, hctlu⟩ :=
    (retPopsTheReturnAddress t).1 (by omega)
  have hsp : u.sp = s.sp := BitVec.eq_of_toNat_eq (by omega)
  exact ⟨u, hret.trans hu, by rw [hpcu, hspt, hcell], hsp, (hregst.trans hregsu).nil_of_sp_eq hsp,
    hflu.trans hflt, hctlt.trans hctlu⟩

end Sys2Proof.Machine
end

section
/-! PROOFS. The fault sites of Table X2 (R193), read in the order of R194: which fault the table gives a
step, and that the step raises it, or completes where the table gives none. -/

namespace Sys2Proof.Machine

/-! ### The fault the table gives -/

section
variable {i : Instr} {s : State}

/-- The fetch comes first: at 254 and 255 no opcode and no register is looked at (D7). -/
theorem faultSite_of_fetchFault (hpc : 254 ≤ s.pc.toNat) : faultSite s = some (.outOfBounds 256) :=
  if_pos hpc

theorem faultSite_of_noOpcode (hpc : s.pc.toNat ≤ 253)
    (hop : opcodeRow (s.byteAt s.pc.toNat) = none) :
    faultSite s = some (.invalidOpcode (s.byteAt s.pc.toNat)) := by
  simp [faultSite, show ¬254 ≤ s.pc.toNat by omega, decode, hop]

theorem faultSite_of_invalidRegister {c : Byte} (hpc : s.pc.toNat ≤ 253) (hi : s.instrAtPc = .ok i)
    (hc : (registerBytes i).find? (fun r => decide (8 ≤ r.toNat)) = some c) :
    faultSite s = some (.invalidRegister c) := by
  rw [State.instrAtPc] at hi
  simp [faultSite, show ¬254 ≤ s.pc.toNat by omega, hi, hc]

theorem faultSite_of_validRegisters (hpc : s.pc.toNat ≤ 253) (hi : s.instrAtPc = .ok i)
    (hv : (registerBytes i).find? (fun r => decide (8 ≤ r.toNat)) = none) :
    faultSite s = executionFault i s := by
  rw [State.instrAtPc] at hi
  simp [faultSite, show ¬254 ≤ s.pc.toNat by omega, hi, hv]

end

/-- The table's two rows for POP are one: SP, as the load leaves it, is 255 (R152, D17). -/
theorem executionFault_pop {a : Byte} (s : State) (ha : a.toNat < 8) :
    executionFault (.pop a) s =
      if (s.popLoad ⟨a.toNat, ha⟩).sp = 255 then some (.outOfBounds 256) else none := by
  rw [State.sp_popLoad, executionFault]
  split <;> rfl

section
variable {v w : Byte} {f g : Fault}

/-- A row of the table applies: the byte it tests has the row's value. -/
theorem of_row_eq_some (h : (if v = w then some g else none) = some f) :
    v.toNat = w.toNat ∧ g = f := by
  obtain ⟨rfl, hf⟩ := Option.ite_none_right_eq_some.1 h
  exact ⟨rfl, Option.some.inj hf⟩

/-- A row of the table does not apply: the byte it tests has another value. -/
theorem of_row_eq_none (h : (if v = w then some g else none) = none) : v.toNat ≠ w.toNat := by
  intro hvw
  rw [if_pos (BitVec.eq_of_toNat_eq hvw)] at h
  cases h

end

/-! ### The execution raises it, or completes -/

section
variable {i : Instr} {s : State}

/-- The row of the instructions of three bytes, for the three that use the ALU. -/
theorem complete_aluStep_faults_of_row {m : Mnemonic} {op : AluOp} {a b : Byte} {f : Fault}
    (hm : m.aluOp = some op) (hv : ∀ c ∈ [a, b], c.toNat < 8)
    (h : (if s.pc = 253 then some (.outOfBounds 256) else none) = some f) :
    Faults (complete s (aluStep m a b s)) s f := by
  obtain ⟨hp, rfl⟩ := of_row_eq_some h
  exact complete_aluStep_faults hm (hv a (by simp)) (hv b (by simp)) hp

/-- With valid registers an instruction raises the fault the table gives its execution (R194). -/
theorem exec_faults_of_executionFault {f : Fault} (hpc : s.pc.toNat ≤ 253)
    (hv : ∀ c ∈ registerBytes i, c.toNat < 8) (h : executionFault i s = some f) :
    Faults (exec i s) s f := by
  cases i with
  | ldi a b =>
    obtain ⟨hp, rfl⟩ := of_row_eq_some h
    exact exec_ldi_faults b (hv a (.head _)) hp
  | mul a b => exact complete_aluStep_faults_of_row rfl hv h
  | add a b => exact complete_aluStep_faults_of_row rfl hv h
  | cmp a b => exact complete_aluStep_faults_of_row rfl hv h
  | push a =>
    obtain ⟨hs, rfl⟩ := of_row_eq_some h
    exact (pushStoresBelowTheStackPointer a s (hv a (.head _))).2 hs
  | pop a =>
    have ha := hv a (.head _)
    obtain ⟨hs, rfl⟩ := of_row_eq_some (executionFault_pop s ha ▸ h)
    exact exec_pop_faults ha hs
  | call a =>
    obtain ⟨hs, rfl⟩ := of_row_eq_some h
    exact (callPushesTheReturnAddress a s (hv a (.head _)) hpc).2 hs
  | ret =>
    obtain ⟨hs, rfl⟩ := of_row_eq_some h
    exact (retPopsTheReturnAddress s).2 hs
  | _ => cases h

/-- Where the table gives its execution no fault, a fetched instruction with valid registers
completes. -/
theorem exists_completed_of_executionFault_eq_none (hpc : s.pc.toNat ≤ 253)
    (hv : ∀ c ∈ registerBytes i, c.toNat < 8) (h : executionFault i s = none) :
    ∃ t, Completed i s t := by
  have hp2 : s.pc.toNat + 2 < 256 := by omega
  have hp3 (hrow : s.pc.toNat ≠ 253) : s.pc.toNat + 3 < 256 := by omega
  have pos_of_ne {v : Byte} (hrow : v.toNat ≠ 0) : 1 ≤ v.toNat := Nat.pos_of_ne_zero hrow
  have le_of_ne {v : Byte} (hrow : v.toNat ≠ 255) : v.toNat ≤ 254 := by have := v.isLt; omega
  cases i with
  | hlt => exact ⟨_, .hlt⟩
  | ldi a b => exact ⟨_, .ldi ⟨a.toNat, hv a (.head _)⟩ rfl (hp3 (of_row_eq_none h))⟩
  | prn a => exact ⟨_, .prn ⟨a.toNat, hv a (.head _)⟩ rfl hp2⟩
  | mul a b =>
    exact ⟨_, .mul ⟨a.toNat, hv a (.head _)⟩ ⟨b.toNat, hv b (.tail _ (.head _))⟩ rfl rfl
      (hp3 (of_row_eq_none h))⟩
  | add a b =>
    exact ⟨_, .add ⟨a.toNat, hv a (.head _)⟩ ⟨b.toNat, hv b (.tail _ (.head _))⟩ rfl rfl
      (hp3 (of_row_eq_none h))⟩
  | cmp a b =>
    exact ⟨_, .cmp ⟨a.toNat, hv a (.head _)⟩ ⟨b.toNat, hv b (.tail _ (.head _))⟩ rfl rfl
      (hp3 (of_row_eq_none h))⟩
  | push a => exact ⟨_, .push ⟨a.toNat, hv a (.head _)⟩ rfl (pos_of_ne (of_row_eq_none h)) hp2⟩
  | pop a =>
    have ha := hv a (.head _)
    exact ⟨_, .pop ⟨a.toNat, ha⟩ rfl (le_of_ne (of_row_eq_none (executionFault_pop s ha ▸ h))) hp2⟩
  | call a => exact ⟨_, .call ⟨a.toNat, hv a (.head _)⟩ rfl (pos_of_ne (of_row_eq_none h)) hp2⟩
  | ret => exact ⟨_, .ret (le_of_ne (of_row_eq_none h))⟩
  | jmp a => exact ⟨_, .jmp ⟨a.toNat, hv a (.head _)⟩ rfl⟩
  | jeq a =>
    cases he : equalFlag s.fl with
    | true => exact ⟨_, .jeqTaken ⟨a.toNat, hv a (.head _)⟩ rfl he⟩
    | false => exact ⟨_, .jeqNot ⟨a.toNat, hv a (.head _)⟩ rfl he hp2⟩
  | jne a =>
    cases he : equalFlag s.fl with
    | true => exact ⟨_, .jneNot ⟨a.toNat, hv a (.head _)⟩ rfl he hp2⟩
    | false => exact ⟨_, .jneTaken ⟨a.toNat, hv a (.head _)⟩ rfl he⟩

/-- An instruction that completes in Running ends in Running or Halted (R90). -/
theorem Completed.running_or_halted {t : State} (h : Completed i s t) (hr : s.status = .running) :
    t.status = .running ∨ t.status = .halted := by
  by_cases hi : i = .hlt
  · subst hi; exact .inr h.status_of_hlt
  · exact .inl ((h.status_eq hi).trans hr)

end

/-- Settles O43: by the sites in the order of R194, the fetch, the opcode, the registers and the
execution; past the last of them the instruction completes. -/
theorem faultSitesAreTableX2 : Obligations.FaultSitesAreTableX2 := by
  intro s hr
  rcases step_cases s with ⟨hn, -⟩ | ⟨-, hpc, e⟩ | ⟨-, hpc, hop, e⟩ | ⟨-, hpc, i, hi, e⟩
  · exact absurd hr hn
  · rw [faultSite_of_fetchFault hpc]; exact e
  · rw [faultSite_of_noOpcode hpc hop]; exact e
  · rw [e]
    cases hreg : (registerBytes i).find? (fun r => decide (8 ≤ r.toNat)) with
    | some c =>
      rw [faultSite_of_invalidRegister hpc hi hreg]
      exact firstInvalidRegisterFaults i s c hreg
    | none =>
      have hv : ∀ c ∈ registerBytes i, c.toNat < 8 := by simpa using hreg
      rw [faultSite_of_validRegisters hpc hi hreg]
      cases hexec : executionFault i s with
      | some f => exact exec_faults_of_executionFault hpc hv hexec
      | none =>
        obtain ⟨t, hc⟩ := exists_completed_of_executionFault_eq_none hpc hv hexec
        exact ⟨t, exec_of_completed hc, hc.running_or_halted hr, hc.fault_eq, hc.fault_eq.trans⟩

end Sys2Proof.Machine
end

section
/-! PROOFS. What reset leaves (Table S2, R210), and what loading an image does: its bytes stored at
ascending addresses, up to the memory's capacity (R212, D25). -/

namespace Sys2Proof.Machine

/-! ### Reset -/

/-- A register after reset: the stack pointer at its initial value, every other at the reset value of
the general registers (Table S2). -/
theorem State.reg_reset (r : RegIndex) :
    State.reset.reg r = if r = Config.spIndex then Config.spReset else Config.gprReset := by
  revert r; decide

/-- Memory after reset lists no cell, so every address reads as an unlisted one (R35, R50). -/
@[simp] theorem State.byteAt_reset (addr : Nat) : State.reset.byteAt addr = Memory.unlisted := rfl

/-- Settles O1: field by field from Table S2. -/
theorem resetLeavesTableS2 : Obligations.ResetLeavesTableS2 :=
  ⟨State.reg_reset, rfl, rfl, rfl, rfl, State.byteAt_reset, rfl⟩

/-- Settles O49: the base case of the invariant. -/
theorem resetSatisfiesTheInvariant : Obligations.ResetSatisfiesTheInvariant := State.reset_inv

/-! ### Bytes stored at ascending addresses -/

/-- The state with `bytes` in the memory cells `k`, `k + 1`, and so on. -/
def State.setBytes (s : State) (k : Nat) : List Byte → State
  | [] => s
  | v :: rest => (s.setByte k v).setBytes (k + 1) rest

/-- Storing bytes touches memory alone. -/
theorem State.sameButMemory_setBytes (s : State) (k : Nat) (bytes : List Byte) :
    s.SameButMemory (s.setBytes k bytes) := by
  induction bytes generalizing s k with
  | nil => exact ⟨rfl, rfl, rfl, rfl, rfl, rfl⟩
  | cons v rest ih =>
    obtain ⟨hstatus, hx, hfl, hpc, hfault, hout⟩ := ih (s.setByte k v) (k + 1)
    exact ⟨hstatus, hx, hfl, hpc, hfault, hout⟩

theorem State.SameButMemory.keepsRegs {s t : State} (h : s.SameButMemory t) :
    s.KeepsRegsBut [] t := fun q _ => congrArg (·[q]) h.x

theorem State.SameButMemory.keepsControl {s t : State} (h : s.SameButMemory t) :
    s.KeepsControl t := ⟨h.status, h.fault⟩

theorem State.byteAt_setBytes_outside {s : State} {k addr : Nat} {bytes : List Byte}
    (h : addr < k ∨ k + bytes.length ≤ addr) : (s.setBytes k bytes).byteAt addr = s.byteAt addr := by
  induction bytes generalizing s k with
  | nil => rfl
  | cons v rest ih =>
    rw [List.length_cons] at h
    calc ((s.setByte k v).setBytes (k + 1) rest).byteAt addr
      _ = (s.setByte k v).byteAt addr := ih (by omega)
      _ = s.byteAt addr := by rw [State.byteAt_setByte, if_neg (by omega)]

theorem State.byteAt_setBytes_inside (s : State) (k : Nat) {bytes : List Byte} {j : Nat}
    (hj : j < bytes.length) : (s.setBytes k bytes).byteAt (k + j) = bytes[j] := by
  induction bytes generalizing s k j with
  | nil => cases hj
  | cons v rest ih =>
    cases j with
    | zero =>
      have hfirst := State.byteAt_setBytes_outside (s := s.setByte k v) (bytes := rest)
        (.inl (Nat.lt_succ_self k))
      exact hfirst.trans (by simp)
    | succ j =>
      rw [← Nat.add_assoc, Nat.add_right_comm]
      exact ih (s.setByte k v) (k + 1) (Nat.lt_of_succ_lt_succ hj)

/-! ### Loading -/

/-- The part of an image that fits is stored, and the load goes on behind it (R212). -/
theorem loadFrom_append {k : Nat} {s : State} (hs : s.status = .ready) (fits rest : List Byte)
    (hk : k + fits.length ≤ 256) :
    loadFrom k (fits ++ rest) s = loadFrom (k + fits.length) rest (s.setBytes k fits) := by
  induction fits generalizing k s with
  | nil => rfl
  | cons v more ih =>
    rw [List.length_cons] at hk
    calc loadFrom k (v :: (more ++ rest)) s
      _ = loadFrom (k + 1) (more ++ rest) (s.setByte k v) := loadFrom_cons hs (by omega) v _
      _ = loadFrom (k + 1 + more.length) rest ((s.setByte k v).setBytes (k + 1) more) :=
        ih (s := s.setByte k v) hs (by omega)
      _ = loadFrom (k + (more.length + 1)) rest (s.setBytes k (v :: more)) := by
        rw [Nat.add_right_comm]; rfl

theorem load_ready {s : State} (hs : s.status = .ready) (bytes : List Byte) :
    load bytes s = loadFrom 0 bytes s := readyOnly_ready hs _

/-- An image of at most 256 bytes is stored from address 0 (R212). -/
theorem load_fits {s : State} (hs : s.status = .ready) {bytes : List Byte}
    (hlen : bytes.length ≤ 256) : load bytes s = (.ok, s.setBytes 0 bytes) := by
  have h := loadFrom_append hs bytes [] (k := 0) (by omega)
  rw [List.append_nil] at h
  exact (load_ready hs bytes).trans h

/-- Of a larger image the first 256 bytes are stored; the write of byte 256 is refused (R212, D25). -/
theorem load_oversize {s : State} (hs : s.status = .ready) {bytes : List Byte}
    (hlen : 256 < bytes.length) :
    load bytes s = (.outOfBounds 256, s.setBytes 0 (bytes.take 256)) := by
  have htake : (bytes.take 256).length = 256 := List.length_take_of_le hlen.le
  have hready : (s.setBytes 0 (bytes.take 256)).status = .ready :=
    (s.sameButMemory_setBytes 0 _).status.trans hs
  calc load bytes s
    _ = loadFrom 0 (bytes.take 256 ++ bytes.drop 256) s := by
      rw [load_ready hs, List.take_append_drop]
    _ = loadFrom 256 (bytes.drop 256) (s.setBytes 0 (bytes.take 256)) := by
      rw [loadFrom_append hs _ _ (by omega), htake, Nat.zero_add]
    _ = (.outOfBounds 256, s.setBytes 0 (bytes.take 256)) := by
      rw [List.drop_eq_getElem_cons hlen]; exact loadFrom_full hready _ _

/-- Settles O6: the bytes are stored from address 0, which touches neither the cells behind them nor
anything but memory. -/
theorem loadWritesTheImageFromZero : Obligations.LoadWritesTheImageFromZero := by
  intro bytes s hs hlen
  have hsame := s.sameButMemory_setBytes 0 bytes
  refine ⟨_, load_fits hs hlen, fun k hk => ?_, fun k hk => ?_, hsame.keepsRegs, hsame.fl,
    hsame.pc, hsame.out, hsame.keepsControl⟩
  · simpa using s.byteAt_setBytes_inside 0 hk
  · exact State.byteAt_setBytes_outside (.inr (by omega))

/-- Settles O7: the first 256 bytes are stored, which leaves the status, and the next write is
refused. -/
theorem oversizeImageIsRefused : Obligations.OversizeImageIsRefused := by
  intro bytes s hs hlen
  refine ⟨_, load_oversize hs hlen, (s.sameButMemory_setBytes 0 _).status.trans hs,
    fun k hk hb => ?_⟩
  have hk' : k < (bytes.take 256).length := by rw [List.length_take]; omega
  simpa using s.byteAt_setBytes_inside 0 hk'

end Sys2Proof.Machine
end
